-- ==== Sys2Proof/Word.lean ====
section
/-! DEFINITION. The word types of lcg_step_unit (spec/00_scope.md R8). A word of N bits is an unsigned integer in
[0, 2^N), bit 0 least significant: exactly `BitVec N`. The arithmetic primitives of R9 stand in Machine/Operands.lean. -/

namespace Sys2Proof

/-- A 64-bit word: `state`, `inc`, operands `A` and `B`, the data field (R6 `XLEN`, R60, R70). -/
abbrev Word64 := BitVec 64

/-- A 32-bit word: one output, the bound `W`, the threshold (R6 `OUTW`, `BOUNDW`). -/
abbrev Word32 := BitVec 32

/-- An 8-bit field: the opcode of a command, the status of a response (R60, R70). -/
abbrev Byte := BitVec 8

/-- The command word `cmd[135:0]` (R6 `CMDW`, R41, R60). -/
abbrev CmdWord := BitVec 136

/-- The response word `rsp[71:0]` (R6 `RSPW`, R42, R70). -/
abbrev RspWord := BitVec 72

end Sys2Proof
end

