-- ==== Sys2Proof/Config.lean ====
section
/-! DEFINITION. What the specification leaves open, as constants WITHOUT A BODY: nothing in Lean can evaluate them, so
no proof can lean on a value of theirs. R7 names the two open parameters `RESET_STATE` and `RESET_INC` ("A model takes
these as arguments and may assume nothing of them"); R14 says nothing else is open. The fixed parameters of R6 (the
multiplier, widths, shift distances) are no configuration: they stand in Machine/Operands.lean and Machine/Ops.lean. -/

namespace Sys2Proof.Config

/-- `RESET_STATE` (R7, R32): what `state` holds after the n-th reset, any 64-bit value. R32 forbids assuming that the
values are equal across two resets, so it is applied to the number of the reset. Log entry 1, DESIGN CHOICE. -/
opaque resetState : Nat → Word64

/-- `RESET_INC` (R7, R32): what `inc` holds after the n-th reset, any 64-bit value, possibly even. Log entry 1, DESIGN CHOICE. -/
opaque resetInc : Nat → Word64

/-- The remainder by zero. R9 defines `umod32(a, b)` only for `b > 0` and no rule takes a remainder by zero (R152 tests
`W == 0` first), so this value is read only in states that no run reaches. Log entry 2, DESIGN CHOICE. -/
opaque umod32ByZero : Word32 → Word32

end Sys2Proof.Config
end

