-- ==== Sys2Proof/Syntax.lean ====
section
/-! DEFINITION. The ten commands (spec/30_encoding.md R66), one constructor per row of spec/opcode_table.json, their
mnemonics and operand formats (R62), and the source line of the assembler (R73). -/

namespace Sys2Proof

/-- A command. The operands are the fields its format uses (R62); ignored fields are no part of it (R63). Every
operand is its field "taken as an unsigned word of the field's width" (R64), so every term of this type is a legal
command: the width of the type is the only condition. -/
inductive Instr where
  /-- `LOAD A, B`, opcode 0x01: direct construction from two raw words (R90). -/
  | load (a b : Word64)
  /-- `SEEDS A, B`, opcode 0x02: `seedWithState(initState, initSeq)` (R91). -/
  | seeds (a b : Word64)
  /-- `SEED A`, opcode 0x03: `seed(value)` (R92). -/
  | seed (a : Word64)
  /-- `STEP`, opcode 0x04: one internal step, no output (R101). -/
  | step
  /-- `NEXT`, opcode 0x05: next 32-bit output (R114). -/
  | next
  /-- `INT63`, opcode 0x06: 63-bit output (R116). -/
  | int63
  /-- `ADV A`, opcode 0x07: jump by `delta = A` steps, two's complement (R130). -/
  | adv (a : Word64)
  /-- `BOUND W`, opcode 0x08: a sample below `W` (R150). -/
  | bound (w : Word32)
  /-- `RDSTATE`, opcode 0x09: read `state` (R170). -/
  | rdstate
  /-- `RDINC`, opcode 0x0A: read `inc` (R171). -/
  | rdinc
  deriving DecidableEq, Repr

/-- The ten mnemonics (R66, R73, R75). -/
inductive Mnemonic where
  | LOAD | SEEDS | SEED | STEP | NEXT | INT63 | ADV | BOUND | RDSTATE | RDINC
  deriving DecidableEq, Repr

/-- The four operand formats (R62). -/
inductive Format where
  /-- `OP` alone. -/
  | N
  /-- `OP` and `A`. -/
  | A
  /-- `OP`, `A` and `B`. -/
  | AB
  /-- `OP` and `W`. -/
  | W
  deriving DecidableEq, Repr

/-- The format column of R66. -/
def Mnemonic.format : Mnemonic → Format
  | .LOAD => .AB
  | .SEEDS => .AB
  | .SEED => .A
  | .STEP => .N
  | .NEXT => .N
  | .INT63 => .N
  | .ADV => .A
  | .BOUND => .W
  | .RDSTATE => .N
  | .RDINC => .N

/-- The number of operands a format takes on a source line (R73). -/
def Format.arity : Format → Nat
  | .N => 0
  | .A => 1
  | .AB => 2
  | .W => 1

/-- The mnemonic of a command. -/
def Instr.mnemonic : Instr → Mnemonic
  | .load _ _ => .LOAD
  | .seeds _ _ => .SEEDS
  | .seed _ => .SEED
  | .step => .STEP
  | .next => .NEXT
  | .int63 => .INT63
  | .adv _ => .ADV
  | .bound _ => .BOUND
  | .rdstate => .RDSTATE
  | .rdinc => .RDINC

/-- The commands whose sequencer context is `Simple` (R29): "every command but ADV, BOUND". -/
def Instr.isSimple : Instr → Bool
  | .load _ _ => true
  | .seeds _ _ => true
  | .seed _ => true
  | .step => true
  | .next => true
  | .int63 => true
  | .adv _ => false
  | .bound _ => false
  | .rdstate => true
  | .rdinc => true

/-- The commands that write `inc` (R22: "Written by exactly three commands"). -/
def Instr.writesInc : Instr → Bool
  | .load _ _ => true
  | .seeds _ _ => true
  | .seed _ => true
  | .step => false
  | .next => false
  | .int63 => false
  | .adv _ => false
  | .bound _ => false
  | .rdstate => false
  | .rdinc => false

/-- A source line after its text is read (R73): the mnemonic and the operands as the mathematical values written.
A comment is not part of it. -/
structure AsmLine where
  mnemonic : Mnemonic
  operands : List Int
  deriving DecidableEq, Repr

end Sys2Proof
end

