-- ==== Sys2Proof/WellFormed.lean ====
section
/-! DEFINITION. The checks of the syntax. An `Instr` needs none (see its docstring: each operand is typed by its
field's width, and R64, R66 make every value of every field legal). What can be ill-formed is a source line of the
assembler: R73 fixes the number of operands, R74 their ranges ("A value outside the range is an assembler error, not a
command"). The check of a command word's canonical spelling (R63) stands beside the decoder, in Decode.lean. -/

namespace Sys2Proof

/-- R74: "An operand written for a 64-bit field must lie in [-2^63, 2^64)". -/
def fits64 (v : Int) : Bool := decide (-(2 ^ 63) ≤ v) && decide (v < 2 ^ 64)

/-- R74: "for the 32-bit field `W` in [0, 2^32)". -/
def fits32 (v : Int) : Bool := decide (0 ≤ v) && decide (v < 2 ^ 32)

/-- The range an operand of a format must lie in (R74). -/
def Format.fits : Format → Int → Bool
  | .N, _ => false
  | .A, v => fits64 v
  | .AB, v => fits64 v
  | .W, v => fits32 v

/-- A source line the assembler takes: as many operands as its format has (R73), each in its range (R74). -/
def AsmLine.wellFormed (l : AsmLine) : Bool :=
  l.operands.length == l.mnemonic.format.arity && l.operands.all l.mnemonic.format.fits

end Sys2Proof
end

