-- ==== Sys2Proof/Decode.lean ====
section
/-! DEFINITION. Decoding and encoding of the 136-bit command word (spec/30_encoding.md R60 to R67). Decoding is total
and looks at `OP` only (R65); a reserved opcode is rejected by name (R67). The encoder writes the canonical word: ignored
fields zero (R63, R76). -/

namespace Sys2Proof

/-- `OP = cmd[135:128]` (R60). -/
def opField (w : CmdWord) : Byte := w.extractLsb' 128 8

/-- `A = cmd[127:64]` (R60). -/
def aField (w : CmdWord) : Word64 := w.extractLsb' 64 64

/-- `B = cmd[63:0]` (R60). -/
def bField (w : CmdWord) : Word64 := w.extractLsb' 0 64

/-- `W = A[31:0] = cmd[95:64]` (R61). -/
def wField (w : CmdWord) : Word32 := w.extractLsb' 64 32

/-- The word with the three fields of R60. -/
def cmdWord (op : Byte) (a b : Word64) : CmdWord := op ++ a ++ b

/-- The `OP` column of R66. -/
def Mnemonic.opcode : Mnemonic → Byte
  | .LOAD => 0x01
  | .SEEDS => 0x02
  | .SEED => 0x03
  | .STEP => 0x04
  | .NEXT => 0x05
  | .INT63 => 0x06
  | .ADV => 0x07
  | .BOUND => 0x08
  | .RDSTATE => 0x09
  | .RDINC => 0x0A

/-- The mnemonic an opcode byte names; none for the 246 reserved values (R67). -/
def Mnemonic.ofOpcode (op : Byte) : Option Mnemonic :=
  match op.toNat with
  | 1 => some .LOAD
  | 2 => some .SEEDS
  | 3 => some .SEED
  | 4 => some .STEP
  | 5 => some .NEXT
  | 6 => some .INT63
  | 7 => some .ADV
  | 8 => some .BOUND
  | 9 => some .RDSTATE
  | 10 => some .RDINC
  | _ => none

/-- The command a mnemonic and the operand fields make (R62). -/
def Mnemonic.build (m : Mnemonic) (a b : Word64) (w : Word32) : Instr :=
  match m with
  | .LOAD => .load a b
  | .SEEDS => .seeds a b
  | .SEED => .seed a
  | .STEP => .step
  | .NEXT => .next
  | .INT63 => .int63
  | .ADV => .adv a
  | .BOUND => .bound w
  | .RDSTATE => .rdstate
  | .RDINC => .rdinc

/-- Why a word is no command. -/
inductive DecodeError where
  /-- The opcode is one of the reserved values 0x00, 0x0B to 0xFF (R67): the block answers `ERR_ILLEGAL_CMD`. -/
  | illegalCmd (op : Byte)
  deriving DecidableEq, Repr

/-- Decoding (R65): exactly one of the ten commands, or illegal. -/
def decode (w : CmdWord) : Except DecodeError Instr :=
  match Mnemonic.ofOpcode (opField w) with
  | some m => .ok (m.build (aField w) (bField w) (wField w))
  | none => .error (.illegalCmd (opField w))

/-- The field `A` of a command's canonical word: its operand, zero where the format ignores it (R62, R63). -/
def Instr.fieldA : Instr → Word64
  | .load a _ => a
  | .seeds a _ => a
  | .seed a => a
  | .step => 0
  | .next => 0
  | .int63 => 0
  | .adv a => a
  | .bound w => w.setWidth 64
  | .rdstate => 0
  | .rdinc => 0

/-- The field `B` of a command's canonical word. -/
def Instr.fieldB : Instr → Word64
  | .load _ b => b
  | .seeds _ b => b
  | .seed _ => 0
  | .step => 0
  | .next => 0
  | .int63 => 0
  | .adv _ => 0
  | .bound _ => 0
  | .rdstate => 0
  | .rdinc => 0

/-- The canonical encoding (R63, R76): "`OP` from rule R66, used fields from the operands, ignored fields zero". -/
def encode (i : Instr) : CmdWord := cmdWord i.mnemonic.opcode i.fieldA i.fieldB

/-- The bits a format uses, `OP` among them (R62): `A = cmd[127:64]`, `B = cmd[63:0]`, `W = cmd[95:64]`. -/
def Format.usedMask : Format → CmdWord
  | .N => 0xFF00000000000000000000000000000000
  | .A => 0xFFFFFFFFFFFFFFFFFF0000000000000000
  | .AB => 0xFFFFFFFFFFFFFFFFFFFFFFFFFFFFFFFFFF
  | .W => 0xFF00000000FFFFFFFF0000000000000000

/-- A word with the fields its format ignores set to zero (R63); an illegal word has no canonical spelling. -/
def canonicalWord (w : CmdWord) : Option CmdWord :=
  match decode w with
  | .ok i => some (encode i)
  | .error _ => none

/-- The check of a word's spelling: a legal opcode and every ignored bit zero (R63). A word that fails it for its ignored
bits is still a legal command. -/
def isCanonical (w : CmdWord) : Bool := canonicalWord w == some w

/-- One row of the opcode map (R66): "a word `w` is the command of a row when `w & mask == match`". -/
structure OpRow where
  mnemonic : Mnemonic
  pattern : CmdWord
  mask : CmdWord
  deriving DecidableEq, Repr

/-- The mask of every row (R66). -/
def opMask : CmdWord := 0xFF00000000000000000000000000000000

/-- The opcode map, transcribed from R66 and spec/opcode_table.json. -/
def opcodeTable : List OpRow :=
  [ { mnemonic := .LOAD, pattern := 0x0100000000000000000000000000000000, mask := opMask }
  , { mnemonic := .SEEDS, pattern := 0x0200000000000000000000000000000000, mask := opMask }
  , { mnemonic := .SEED, pattern := 0x0300000000000000000000000000000000, mask := opMask }
  , { mnemonic := .STEP, pattern := 0x0400000000000000000000000000000000, mask := opMask }
  , { mnemonic := .NEXT, pattern := 0x0500000000000000000000000000000000, mask := opMask }
  , { mnemonic := .INT63, pattern := 0x0600000000000000000000000000000000, mask := opMask }
  , { mnemonic := .ADV, pattern := 0x0700000000000000000000000000000000, mask := opMask }
  , { mnemonic := .BOUND, pattern := 0x0800000000000000000000000000000000, mask := opMask }
  , { mnemonic := .RDSTATE, pattern := 0x0900000000000000000000000000000000, mask := opMask }
  , { mnemonic := .RDINC, pattern := 0x0A00000000000000000000000000000000, mask := opMask } ]

/-- The command word whose low `nbits` bits are those of `w` and whose other bits are zero. The command is one word and
no byte order is visible (R51), so bit `k` of `w` is `cmd[k]` (log entry 14, DEDUCED). -/
def tableWord (nbits w : Nat) : CmdWord := BitVec.ofNat 136 (w % 2 ^ nbits)

/-- The instruction the decoder reads from an instruction whose bits are `w`; none where it is illegal. -/
def decodeTableWord (nbits w : Nat) : Option Instr :=
  match decode (tableWord nbits w) with
  | .ok i => some i
  | .error _ => none

end Sys2Proof
end

