-- ==== Sys2Proof/Machine/State.lean ====
section
/-! DEFINITION. The state of the block as plain data: the two architectural registers (spec/10_state.md R20), the hidden
sequencer (R29), the input pins and the host behind them (spec/20_memory.md R41 to R44, spec/00_scope.md R12, R15), and
two fields of the model's own. The block has no memory, program counter, flags or control registers (R26 to R28, R31). -/

namespace Sys2Proof.Machine

/-- The three statuses a response may carry (R71); "A model's response type has three statuses only"
(spec/93_implementation_defined.md U7). -/
inductive Status where
  /-- `OK`, 0x00: the command completed. -/
  | ok
  /-- `ERR_ILLEGAL_CMD`, 0x01: a reserved opcode (R181). -/
  | errIllegalCmd
  /-- `ERR_INVALID_ARG`, 0x02: `BOUND` with `W = 0` (R182). -/
  | errInvalidArg
  deriving DecidableEq, Repr

/-- The two error conditions of the block (R180). -/
inductive CmdError where
  /-- `IllegalCmd` (R181): raised by decoding a reserved opcode. -/
  | illegalCmd
  /-- `InvalidArg` (R182): raised by `BOUND` with `W = 0`. -/
  | invalidArg
  deriving DecidableEq, Repr

/-- A response `{status, data}` (R70). Its 72-bit word is `Response.toWord` (Machine/Flags.lean). -/
structure Response where
  status : Status
  data : Word64
  deriving DecidableEq, Repr

/-- The context of a running `ADV`: five 64-bit words (R29, R131). -/
structure AdvCtx where
  delta : Word64
  accMult : Word64
  accPlus : Word64
  curMult : Word64
  curPlus : Word64
  deriving DecidableEq, Repr

/-- The context of a running command (R29). -/
inductive Ctx where
  /-- Every command but `ADV` and `BOUND`. -/
  | simple (cmd : Instr)
  /-- A running `ADV`. -/
  | adv (c : AdvCtx)
  /-- A running `BOUND`: the bound and its threshold (R151). -/
  | bound (w threshold : Word32)
  deriving DecidableEq, Repr

/-- The phase of the sequencer (R29). -/
inductive Phase where
  /-- No command in the block; a command can be accepted. -/
  | idle
  /-- A command has been accepted and has not yet responded. -/
  | busy (ctx : Ctx)
  /-- The response is presented and not yet taken. -/
  | resp (r : Response)
  deriving DecidableEq, Repr

/-- The levels on the block's input pins: `rst` (R200), whether the host drives `cmd_valid` (R41), `rsp_ready` (R42).
The word on `cmd` is the first of the host's commands. -/
structure Pins where
  rst : Bool
  cmdValid : Bool
  rspReady : Bool
  deriving DecidableEq, Repr

/-- What the host does before a later step: it drives its pins, and it may change or withdraw the commands the block has
not accepted (R43); `none` leaves them. Log entry 4, DESIGN CHOICE. -/
structure HostMove where
  pins : Pins
  commands : Option (List CmdWord)
  deriving DecidableEq, Repr

/-- How much of an accepted command one step performs. R29 leaves this to the model ("A model may merge `BUSY` and the
command's whole execution into one atomic transition"). Log entry 3, DESIGN CHOICE. -/
inductive Grain where
  /-- Acceptance and the command's execution are one step (for `BOUND`: acceptance and the first draw). -/
  | command
  /-- Every transition of R29 is a step of its own. -/
  | transition
  deriving DecidableEq, Repr

/-- The registers by number (R10, R20): `x[0]` is `state`, `x[1]` is `inc`. -/
inductive Reg where
  | state
  | inc
  deriving DecidableEq, Repr

/-- The machine. -/
structure State where
  /-- `state`, x[0], 64 bits (R21). -/
  state : Word64
  /-- `inc`, x[1], 64 bits, possibly even (R22, R23). -/
  inc : Word64
  /-- The sequencer's phase with its context or pending response (R29). -/
  phase : Phase
  /-- The levels on `rst`, `cmd_valid`, `rsp_ready` (R41, R42, R200). -/
  pins : Pins
  /-- The commands the host has not yet had accepted, the next one first (R15, R26, R46). -/
  commands : List CmdWord
  /-- What the host does before each later step; when the list is empty the pins hold their levels (log entry 4, DESIGN CHOICE). -/
  schedule : List HostMove
  /-- The responses the host has taken, oldest first (R15). -/
  taken : List Response
  /-- The model's own: how much of a command one step performs (log entry 3, DESIGN CHOICE). -/
  grain : Grain
  /-- The model's own: how many resets have been, the index of the next free reset values (log entry 1, DESIGN CHOICE). -/
  resets : Nat
  deriving DecidableEq, Repr

/-- Why the machine stops. No rule stops the block: an error is a response and the block keeps working (R180, R187,
R196), every word has a defined behaviour (R67) and every primitive is total (R9). So no fault exists, and nothing raises
one; this is safe, for no claim rests on a stop. -/
inductive Fault where
  deriving DecidableEq, Repr

/-- Why an instruction is refused. -/
inductive Refusal where
  /-- An instruction without a meaning yet, raised by an arm of `exec` alone; safe. No arm raises it. -/
  | notModelled (mnemonic : String)
  deriving DecidableEq, Repr

/-- The pins of the host that R16 assumes: no reset, a waiting command is presented, every response is taken. -/
def Pins.ready : Pins := { rst := false, cmdValid := true, rspReady := true }

/-- The machine right after reset (R32, R200): phase `IDLE`, no context, no response pending, `state` and `inc`
unspecified (the open parameters, log entry 1, DESIGN CHOICE). The host has issued nothing (log entry 4, DESIGN CHOICE). -/
def State.reset : State :=
  { state := Config.resetState 0
    inc := Config.resetInc 0
    phase := .idle
    pins := Pins.ready
    commands := []
    schedule := []
    taken := []
    grain := .command
    resets := 1 }

end Sys2Proof.Machine
end

