-- ==== Sys2Proof/Machine/Operands.lean ====
section
/-! DEFINITION. The arithmetic primitives of spec/00_scope.md R9, each a total function of its operands, the fixed
parameter `MULT` (R6) and the two registers read and written by name (R10). Nothing raises anything on overflow. -/

namespace Sys2Proof.Machine

/-- `MULT = 6364136223846793005`, the LCG multiplier (R6, R102): "a fixed constant ... must not be configurable". -/
def mult : Word64 := 6364136223846793005

/-- `add64` (R9). -/
def add64 (a b : Word64) : Word64 := a + b

/-- `mul64` (R9): the low 64 bits of the product. -/
def mul64 (a b : Word64) : Word64 := a * b

/-- `shr` on 64 bits (R9): logical right shift. -/
def shr64 (v : Word64) (n : Nat) : Word64 := v >>> n

/-- `shl64` (R9). -/
def shl64 (v : Word64) (n : Nat) : Word64 := v <<< n

/-- `shr` on 32 bits (R9). -/
def shr32 (v : Word32) (n : Nat) : Word32 := v >>> n

/-- `shl32` (R9). -/
def shl32 (v : Word32) (n : Nat) : Word32 := v <<< n

/-- `trunc32` (R9): the low 32 bits. -/
def trunc32 (v : Word64) : Word32 := v.setWidth 32

/-- `zext_64` of a 32-bit word (R9). -/
def zext64 (v : Word32) : Word64 := v.setWidth 64

/-- `neg32` (R9): 32-bit two's complement negation. -/
def neg32 (v : Word32) : Word32 := -v

/-- `umod32` (R9): the unsigned remainder, "defined only for `b > 0`"; for `b = 0` an open value that no run reads
(log entry 2, DESIGN CHOICE). -/
def umod32 (a b : Word32) : Word32 := if b = 0 then Config.umod32ByZero a else a % b

/-- `ror32` (R112): "defined by PCGR's masked-shift formula and by nothing else". Both distances lie in [0, 31]. -/
def ror32 (v : Word32) (r : Word32) : Word32 := shr32 v r.toNat ||| shl32 v (neg32 r &&& 31).toNat

/-- `x[i]` (R10): register read. -/
def State.reg (s : State) : Reg → Word64
  | .state => s.state
  | .inc => s.inc

/-- `x[i] <- v` (R10): register write. -/
def State.setReg (s : State) (r : Reg) (v : Word64) : State :=
  match r with
  | .state => { s with state := v }
  | .inc => { s with inc := v }

/-- The increment as arithmetic uses it: `inc | 1`, never written back (R23, R100). -/
def State.oddInc (s : State) : Word64 := s.reg .inc ||| 1

end Sys2Proof.Machine
end

