-- ==== Sys2Proof/Machine/Flags.lean ====
section
/-! DEFINITION. The block has no flags (spec/10_state.md R27): "the only status a command leaves is the status byte of
its own response". This file holds that byte and the 72-bit response word (spec/30_encoding.md R70 to R72). -/

namespace Sys2Proof.Machine

/-- The status codes of R71. -/
def Status.code : Status → Byte
  | .ok => 0x00
  | .errIllegalCmd => 0x01
  | .errInvalidArg => 0x02

/-- The status a byte stands for; 0x03 to 0xFF are never produced (R71). -/
def Status.ofCode (b : Byte) : Option Status :=
  match b.toNat with
  | 0 => some .ok
  | 1 => some .errIllegalCmd
  | 2 => some .errInvalidArg
  | _ => none

/-- The status an error is answered with (R181, R182). -/
def CmdError.status : CmdError → Status
  | .illegalCmd => .errIllegalCmd
  | .invalidArg => .errInvalidArg

/-- `rsp[71:0] = {status, data}` (R70). -/
def Response.toWord (r : Response) : RspWord := r.status.code ++ r.data

/-- The response a word on the port carries; none for a status that is never produced. -/
def Response.ofWord (w : RspWord) : Option Response :=
  (Status.ofCode (w.extractLsb' 64 8)).map fun st => { status := st, data := w.extractLsb' 0 64 }

end Sys2Proof.Machine
end

