-- ==== Sys2Proof/Machine/Ops.lean ====
section
/-! DEFINITION. The operations every command shares: the LCG step (spec/41_lcg_step.md R100), the output permutation
(spec/42_output_xsh_rr.md R110), the draw (R113), `respond` (spec/00_scope.md R10), raising an error and what follows it
(spec/60_exceptions.md R187, R188), reset (spec/70_reset_and_hazards.md R200, R201), and the two ports
(spec/20_memory.md R41 to R44). -/

namespace Sys2Proof.Machine

/-- The state-transition function of `Step()` on words: `state*MULT + (inc|1)` modulo 2^64 (R100). The constant is written
as the first factor (multiplication commutes): in the other order Lean's kernel counts down from it (log entry 15, DESIGN CHOICE). -/
def lcg (inc x : Word64) : Word64 := add64 (mul64 mult x) (inc ||| 1)

/-- `Step()` (R100): writes `state`, reads `inc`, nothing else. -/
def State.lcgStep (s : State) : State := s.setReg .state (lcg (s.reg .inc) (s.reg .state))

/-- `xorshifted` of `XshRr` (R110). -/
def xorshifted (x : Word64) : Word32 := trunc32 (shr64 (shr64 x 18 ^^^ x) 27)

/-- `rot` of `XshRr` (R110): the top five bits. -/
def rotAmount (x : Word64) : Word32 := trunc32 (shr64 x 59)

/-- `XshRr(s)` (R110). -/
def xshRr (x : Word64) : Word32 := ror32 (xorshifted x) (rotAmount x)

/-- `Next()` (R113): capture the old state, step, permute the old state. -/
def State.draw (s : State) : Word32 × State :=
  let old := s.reg .state
  let s := s.lcgStep
  (xshRr old, s)

/-- `respond(status, data)` (R10): presents the response and ends the command. -/
def State.respond (s : State) (st : Status) (data : Word64) : State :=
  { s with phase := .resp { status := st, data := data } }

/-- Taking an error (R181, R182, R187): nothing is saved, the registers keep their values, the error status is answered
with data 0. -/
def State.raise (s : State) (e : CmdError) : State := s.respond e.status 0

/-- The host takes the response (R44): it is observed (R15) and the phase becomes `IDLE`. There is no other return from
an error (R188). -/
def State.takeResponse (s : State) (r : Response) : State :=
  { s with phase := .idle, taken := s.taken ++ [r] }

/-- Reset (R200, R201): overrides everything; the command in progress and the pending response are abandoned, the phase is
`IDLE`, `state` and `inc` are unspecified after every reset, that is fresh free values (R32, log entry 1, DESIGN CHOICE). -/
def State.resetBlock (s : State) : State :=
  { s with
    state := Config.resetState s.resets
    inc := Config.resetInc s.resets
    phase := .idle
    resets := s.resets + 1 }

/-- The command on the command port: `cmd_valid` and `cmd` (R41). -/
def State.cmdPort (s : State) : Option CmdWord :=
  if s.pins.cmdValid then s.commands.head? else none

/-- `cmd_ready` (R43): true exactly in `IDLE`; false while `rst` is asserted (R200; log entry 7, DEDUCED). -/
def State.cmdReady (s : State) : Bool := !s.pins.rst && s.phase == .idle

/-- The response port: `rsp_valid` and `rsp` (R44); nothing while `rst` is asserted (R200). -/
def State.rspPort (s : State) : Option RspWord :=
  match s.phase with
  | .resp r => if s.pins.rst then none else some r.toWord
  | .idle => none
  | .busy _ => none

/-- The command is accepted (R41): the whole word leaves the host at once. -/
def State.popCommand (s : State) : State := { s with commands := s.commands.tail }

/-- What the host does before the next step (R12, R43): its next move, or nothing when the schedule is empty. -/
def State.hostTurn (s : State) : State :=
  match s.schedule with
  | [] => s
  | m :: rest => { s with pins := m.pins, commands := m.commands.getD s.commands, schedule := rest }

/-- The model's pc as R26 allows one: "the index into the host's command list ... advanced by one for every response
taken". It is no register: it is read off the responses taken. -/
def State.hostPc (s : State) : Nat := s.taken.length

end Sys2Proof.Machine
end

