-- ==== Sys2Proof/Machine/Advance.lean ====
section
/-! DEFINITION. Jump-ahead and jump-back: `ADV` (spec/43_advance.md), by binary exponentiation of the affine step map
modulo 2^64 (R141: no matrix, no GF(2)). -/

namespace Sys2Proof.Machine

/-- The initial context (R131): the accumulator pair is the identity, the current pair is one `Step()`. -/
def advInit (a oddInc : Word64) : AdvCtx :=
  { delta := a, accMult := 1, accPlus := 0, curMult := mult, curPlus := oddInc }

/-- Lines 1 and 2 of an iteration (R132): the accumulator pair takes in the current pair. -/
def advAccumulate (c : AdvCtx) : AdvCtx :=
  { c with
    accMult := mul64 c.accMult c.curMult
    accPlus := add64 (mul64 c.accPlus c.curMult) c.curPlus }

/-- Lines 3 to 5 of an iteration (R132): the current pair doubles, `curPlus` by the un-squared `curMult`; `delta` shifts. -/
def advDouble (c : AdvCtx) : AdvCtx :=
  { c with
    curPlus := mul64 (add64 c.curMult 1) c.curPlus
    curMult := mul64 c.curMult c.curMult
    delta := shr64 c.delta 1 }

/-- One iteration (R132), performed while `delta != 0`. -/
def advIterate (c : AdvCtx) : AdvCtx :=
  if c.delta.getLsbD 0 then advDouble (advAccumulate c) else advDouble c

/-- The loop (R133) under fuel: `delta != 0` is tested before each iteration. 64 iterations are enough for every
`delta`, since each one shifts `delta` right by one bit (log entry 16, DEDUCED). -/
def advLoop : Nat → AdvCtx → AdvCtx
  | 0, c => c
  | n + 1, c => if c.delta = 0 then c else advLoop n (advIterate c)

/-- The final assignment and the response (R134): the only write of `state` in the command. -/
def State.advFinish (s : State) (c : AdvCtx) : State :=
  (s.setReg .state (add64 (mul64 c.accMult (s.reg .state)) c.accPlus)).respond .ok 0

/-- One transition of a running `ADV` (R29): an iteration, or the end when `delta` is 0. -/
def State.advTransition (s : State) (c : AdvCtx) : State :=
  if c.delta = 0 then s.advFinish c else { s with phase := .busy (.adv (advIterate c)) }

/-- `ADV A` (R130). -/
def execAdv (a : Word64) (s : State) : Host.Outcome State Fault Refusal :=
  .next (s.advFinish (advLoop 64 (advInit a s.oddInc)))

end Sys2Proof.Machine
end

