-- ==== Sys2Proof/Machine/Bound.lean ====
section
/-! DEFINITION. Bounded sampling by rejection: `BOUND` (spec/44_bound.md). Each draw is a transition of its own, so that
a `BOUND` that did not end would be an infinite run here too (R156). -/

namespace Sys2Proof.Machine

/-- The threshold (R151): the negation is the 32-bit one. -/
def boundThreshold (w : Word32) : Word32 := umod32 (neg32 w) w

/-- One draw of a running `BOUND` (R153, R154): accepted when `r >= threshold`, the remainder of the draw itself is the
answer; otherwise discarded, its step stays consumed, the context is unchanged. -/
def State.boundDraw (s : State) (w threshold : Word32) : State :=
  let d := s.draw
  if threshold.toNat ≤ d.1.toNat then d.2.respond .ok (zext64 (umod32 d.1 w))
  else { d.2 with phase := .busy (.bound w threshold) }

/-- `BOUND W` (R150): the test `W == 0` is made before anything else and raises `InvalidArg` with no draw (R152; log entry 12, UNVERIFIED);
otherwise the threshold and the first draw. A rejected first draw leaves the command running. -/
def execBound (w : Word32) (s : State) : Host.Outcome State Fault Refusal :=
  .next (if w = 0 then s.raise .invalidArg else s.boundDraw w (boundThreshold w))

end Sys2Proof.Machine
end

