-- ==== Sys2Proof/Machine/Output.lean ====
section
/-! DEFINITION. The commands that step and draw: `STEP` (spec/41_lcg_step.md R101), `NEXT` and `INT63`
(spec/42_output_xsh_rr.md R114, R116). -/

namespace Sys2Proof.Machine

/-- `STEP` (R101): one step, data 0. -/
def execStep (s : State) : Host.Outcome State Fault Refusal :=
  .next (s.lcgStep.respond .ok 0)

/-- `NEXT` (R114): one draw, zero-extended. -/
def execNext (s : State) : Host.Outcome State Fault Refusal :=
  let d := s.draw
  .next (d.2.respond .ok (zext64 d.1))

/-- The 63-bit combination of two draws (R116): the earlier one is the high word, bit 63 is cleared. -/
def int63Data (hi lo : Word32) : Word64 :=
  (shl64 (zext64 hi) 32 ||| zext64 lo) &&& 0x7FFFFFFFFFFFFFFF

/-- `INT63` (R116): two draws, the earlier one high. -/
def execInt63 (s : State) : Host.Outcome State Fault Refusal :=
  let d1 := s.draw
  let d2 := d1.2.draw
  .next (d2.2.respond .ok (int63Data d1.1 d2.1))

end Sys2Proof.Machine
end

