-- ==== Sys2Proof/Machine/Readback.lean ====
section
/-! DEFINITION. Reading the raw words: `RDSTATE`, `RDINC` (spec/45_readback.md). No side effect. -/

namespace Sys2Proof.Machine

/-- `RDSTATE` (R170). -/
def execRdstate (s : State) : Host.Outcome State Fault Refusal :=
  .next (s.respond .ok (s.reg .state))

/-- `RDINC` (R171): the stored word verbatim, not `inc | 1`. -/
def execRdinc (s : State) : Host.Outcome State Fault Refusal :=
  .next (s.respond .ok (s.reg .inc))

end Sys2Proof.Machine
end

