-- ==== Sys2Proof/Machine/Seeding.lean ====
section
/-! DEFINITION. Construction and seeding: `LOAD`, `SEEDS`, `SEED` (spec/40_seed_load.md). -/

namespace Sys2Proof.Machine

/-- The five actions of seeding in PCGR's order (R91): `state <- 0`, `inc <- i`, `Step()`, `state <- state + a`,
`Step()`. The algebra is not simplified (R219). -/
def State.prime (s : State) (a i : Word64) : State :=
  let s := s.setReg .state 0
  let s := s.setReg .inc i
  let s := s.lcgStep
  let s := s.setReg .state (add64 (s.reg .state) a)
  s.lcgStep

/-- `LOAD A, B` (R90): both words verbatim, no step, `inc` is not forced odd. -/
def execLoad (a b : Word64) (s : State) : Host.Outcome State Fault Refusal :=
  .next (((s.setReg .state a).setReg .inc b).respond .ok 0)

/-- `SEEDS A, B` (R91): `inc` is `shl64(B, 1) | 1`. -/
def execSeeds (a b : Word64) (s : State) : Host.Outcome State Fault Refusal :=
  .next ((s.prime a (shl64 b 1 ||| 1)).respond .ok 0)

/-- `SEED A` (R92): `inc` is 1; the field `B` is not read. -/
def execSeed (a : Word64) (s : State) : Host.Outcome State Fault Refusal :=
  .next ((s.prime a 1).respond .ok 0)

end Sys2Proof.Machine
end

