-- ==== Sys2Proof/Machine/Dispatch.lean ====
section
/-! DEFINITION. One arm per command (spec/30_encoding.md R66): what an ACCEPTED command does to the block. Whether a
command can be accepted is the sequencer's affair (Machine/Sequencer.lean), so a meaning does not look at the phase. -/

namespace Sys2Proof.Machine

def exec (i : Instr) (s : State) : Host.Outcome State Fault Refusal :=
  match i with
  | .load a b => Sys2Proof.Machine.execLoad a b s
  | .seeds a b => Sys2Proof.Machine.execSeeds a b s
  | .seed a => Sys2Proof.Machine.execSeed a s
  | .step => Sys2Proof.Machine.execStep s
  | .next => Sys2Proof.Machine.execNext s
  | .int63 => Sys2Proof.Machine.execInt63 s
  | .adv a => Sys2Proof.Machine.execAdv a s
  | .bound w => Sys2Proof.Machine.execBound w s
  | .rdstate => Sys2Proof.Machine.execRdstate s
  | .rdinc => Sys2Proof.Machine.execRdinc s

end Sys2Proof.Machine
end

