-- ==== Sys2Proof/Machine/Sequencer.lean ====
section
/-! DEFINITION. The sequencer (spec/10_state.md R29): it accepts one command, runs it to its response, and accepts the
next once the host has taken the response (spec/20_memory.md R43 to R46). Reset overrides everything (R201). -/

namespace Sys2Proof.Machine

/-- `IDLE -> BUSY` (R29): the context a command starts with. The order of checks is R185's: a `BOUND` with `W = 0` is
answered before its threshold is computed, so it has no context. -/
def State.beginCommand (s : State) (i : Instr) : State :=
  match i with
  | .adv a => { s with phase := .busy (.adv (advInit a s.oddInc)) }
  | .bound w =>
    if w = 0 then s.raise .invalidArg else { s with phase := .busy (.bound w (boundThreshold w)) }
  | .load a b => { s with phase := .busy (.simple (.load a b)) }
  | .seeds a b => { s with phase := .busy (.simple (.seeds a b)) }
  | .seed a => { s with phase := .busy (.simple (.seed a)) }
  | .step => { s with phase := .busy (.simple .step) }
  | .next => { s with phase := .busy (.simple .next) }
  | .int63 => { s with phase := .busy (.simple .int63) }
  | .rdstate => { s with phase := .busy (.simple .rdstate) }
  | .rdinc => { s with phase := .busy (.simple .rdinc) }

/-- The block accepts a word (R41): a reserved opcode is answered at once (R67, R181); a command runs whole, or begins,
as the grain of the model's steps says (log entry 3, DESIGN CHOICE). -/
def State.accept (s : State) (w : CmdWord) : Host.Outcome State Fault Refusal :=
  match decode w with
  | .error _ => .next (s.raise .illegalCmd)
  | .ok i =>
    match s.grain with
    | .command => exec i s
    | .transition => .next (s.beginCommand i)

/-- One transition of the block under the levels on its pins (R29, R43, R44, R200): in `IDLE` it accepts the command
presented or waits; in `BUSY` it goes on with the command; in `RESP` it waits for the host to take the response. -/
def State.transition (s : State) : Host.Outcome State Fault Refusal :=
  if s.pins.rst then .next s.resetBlock
  else
    match s.phase with
    | .idle =>
      match s.cmdPort with
      | none => .next s
      | some w => s.popCommand.accept w
    | .busy (.simple i) => exec i s
    | .busy (.adv c) => .next (s.advTransition c)
    | .busy (.bound w t) => .next (s.boundDraw w t)
    | .resp r => .next (if s.pins.rspReady then s.takeResponse r else s)

/-- Places a command so that the next step accepts it: the block idle, no reset, the command first in the host's list and
presented, the step of command grain. The rest of the host's list follows it. -/
def State.presentNext (s : State) (w : CmdWord) : State :=
  { s with
    phase := .idle
    pins := { s.pins with rst := false, cmdValid := true }
    commands := w :: s.commands
    grain := .command }

end Sys2Proof.Machine
end

