-- ==== Sys2Proof/Machine/Step.lean ====
section
/-! DEFINITION. One step of the machine: a transition of the block (Machine/Sequencer.lean), then the host's turn. -/

namespace Sys2Proof.Machine

/-- One step. -/
def step (s : State) : Host.Outcome State Fault Refusal :=
  match s.transition with
  | .next t => .next t.hostTurn
  | .fault r => .fault r
  | .refused r => .refused r

/-- The state in which the next step runs the instruction with these bits: the block fetches nothing (R26, R50), the host
presents the word on the command port (log entry 5, DESIGN CHOICE). -/
def State.withFetchWord (s : State) (nbits w : Nat) : State := s.presentNext (tableWord nbits w)

end Sys2Proof.Machine
end

