-- ==== Sys2Proof/Machine/Assembler.lean ====
section
/-! DEFINITION. The assembler and the disassembler of spec/30_encoding.md R73 to R78. Tooling only (D12): the block never
sees a line. The text is a list of characters. Blanks around an operand or a comma and at a line's ends are skipped, and one
must follow a mnemonic that has operands (log entry 6, DESIGN CHOICE). -/

namespace Sys2Proof.Machine

/-- The names of the ten mnemonics, upper case (R73). -/
def mnemonicNames : List (List Char × Mnemonic) :=
  [ (['L', 'O', 'A', 'D'], .LOAD), (['S', 'E', 'E', 'D', 'S'], .SEEDS), (['S', 'E', 'E', 'D'], .SEED)
  , (['S', 'T', 'E', 'P'], .STEP), (['N', 'E', 'X', 'T'], .NEXT), (['I', 'N', 'T', '6', '3'], .INT63)
  , (['A', 'D', 'V'], .ADV), (['B', 'O', 'U', 'N', 'D'], .BOUND)
  , (['R', 'D', 'S', 'T', 'A', 'T', 'E'], .RDSTATE), (['R', 'D', 'I', 'N', 'C'], .RDINC) ]

/-- The mnemonic of a name. -/
def readMnemonic (cs : List Char) : Option Mnemonic :=
  (mnemonicNames.find? fun p => p.1 == cs).map Prod.snd

/-- The name of a mnemonic. -/
def printMnemonic (m : Mnemonic) : List Char :=
  ((mnemonicNames.find? fun p => p.2 == m).map Prod.fst).getD []

/-- The value of a hexadecimal digit. -/
def digitValue (c : Char) : Option Nat :=
  if '0'.toNat ≤ c.toNat ∧ c.toNat ≤ '9'.toNat then some (c.toNat - '0'.toNat)
  else if 'a'.toNat ≤ c.toNat ∧ c.toNat ≤ 'f'.toNat then some (c.toNat - 'a'.toNat + 10)
  else if 'A'.toNat ≤ c.toNat ∧ c.toNat ≤ 'F'.toNat then some (c.toNat - 'A'.toNat + 10)
  else none

/-- Digits of a base, most significant first, after the value read so far. -/
def readDigits (base : Nat) : Nat → List Char → Option Nat
  | acc, [] => some acc
  | acc, c :: cs =>
    match digitValue c with
    | some d => if d < base then readDigits base (acc * base + d) cs else none
    | none => none

/-- A number of at least one digit. -/
def readNumber (base : Nat) (cs : List Char) : Option Nat :=
  if cs = [] then none else readDigits base 0 cs

/-- `operand ::= ["-"] decimal | "0x" hexdigits` (R73). -/
def readOperand : List Char → Option Int
  | '-' :: cs => (readNumber 10 cs).map fun n => -(n : Int)
  | '0' :: 'x' :: cs => (readNumber 16 cs).map fun n => (n : Int)
  | cs => (readNumber 10 cs).map fun n => (n : Int)

/-- A blank. -/
def isBlank (c : Char) : Bool := c == ' ' || c == '\t'

/-- A text without the blanks at its two ends. -/
def trimBlanks (cs : List Char) : List Char :=
  ((cs.dropWhile isBlank).reverse.dropWhile isBlank).reverse

/-- The parts of a text between its commas. -/
def splitCommas : List Char → List (List Char)
  | [] => [[]]
  | c :: cs =>
    if c = ',' then [] :: splitCommas cs
    else
      match splitCommas cs with
      | [] => [[c]]
      | p :: ps => (c :: p) :: ps

/-- The operands of a line: none, or the parts between its commas. -/
def readOperands (cs : List Char) : Option (List Int) :=
  if cs = [] then some [] else (splitCommas cs).mapM fun p => readOperand (trimBlanks p)

/-- `line ::= mnemonic [ operand { "," operand } ] [ ";" comment ]` (R73). The mnemonic reaches to the first blank, so a blank
must separate it from its first operand (`ADV-6` is refused): R73 leaves that open (log entry 6, DESIGN CHOICE). -/
def parseLine (cs : List Char) : Option AsmLine := do
  let body := trimBlanks (cs.takeWhile (· != ';'))
  let m ← readMnemonic (body.takeWhile (!isBlank ·))
  let ops ← readOperands (trimBlanks (body.dropWhile (!isBlank ·)))
  pure { mnemonic := m, operands := ops }

/-- The command of a line (R74): "A negative value `-n` is assembled as `2^64 - n`"; a line outside the ranges or with
the wrong number of operands is an assembler error. -/
def assemble (l : AsmLine) : Option Instr :=
  if l.wellFormed then
    some (l.mnemonic.build (BitVec.ofInt 64 (l.operands.getD 0 0)) (BitVec.ofInt 64 (l.operands.getD 1 0))
      (BitVec.ofInt 32 (l.operands.getD 0 0)))
  else none

/-- The canonical word of a line of text (R76). -/
def assembleText (cs : List Char) : Option CmdWord :=
  ((parseLine cs).bind assemble).map encode

/-- The line that stands for a command: its mnemonic and its used fields. -/
def lineOf : Instr → AsmLine
  | .load a b => { mnemonic := .LOAD, operands := [(a.toNat : Int), (b.toNat : Int)] }
  | .seeds a b => { mnemonic := .SEEDS, operands := [(a.toNat : Int), (b.toNat : Int)] }
  | .seed a => { mnemonic := .SEED, operands := [(a.toNat : Int)] }
  | .step => { mnemonic := .STEP, operands := [] }
  | .next => { mnemonic := .NEXT, operands := [] }
  | .int63 => { mnemonic := .INT63, operands := [] }
  | .adv a => { mnemonic := .ADV, operands := [(a.toNat : Int)] }
  | .bound w => { mnemonic := .BOUND, operands := [(w.toNat : Int)] }
  | .rdstate => { mnemonic := .RDSTATE, operands := [] }
  | .rdinc => { mnemonic := .RDINC, operands := [] }

/-- What the disassembler prints for a word (R78). -/
inductive Listing where
  /-- A legal opcode: the command's line, with the whole word in a comment "if any ignored bit is non-zero". -/
  | command (line : AsmLine) (comment : Option CmdWord)
  /-- A reserved opcode: `.illegal` and the word. -/
  | illegal (w : CmdWord)
  deriving DecidableEq, Repr

/-- Disassembly (R78). -/
def disassemble (w : CmdWord) : Listing :=
  match decode w with
  | .ok i => .command (lineOf i) (if isCanonical w then none else some w)
  | .error _ => .illegal w

/-- A hexadecimal digit, upper case. -/
def hexDigit (d : Nat) : Char := Char.ofNat (if d < 10 then 48 + d else 55 + d)

/-- The `n` low hexadecimal digits of a number, most significant first. -/
def hexDigits : Nat → Nat → List Char
  | 0, _ => []
  | n + 1, v => hexDigits n (v / 16) ++ [hexDigit (v % 16)]

/-- `0x` and the digits of a number of that many digits. -/
def printHex (digits v : Nat) : List Char := '0' :: 'x' :: hexDigits digits v

/-- The number of digits an operand of a format is printed with: all of its field (log entry 6, DESIGN CHOICE). -/
def Format.printDigits : Format → Nat
  | .W => 8
  | .N => 16
  | .A => 16
  | .AB => 16

/-- The printed text of a listing (R78). -/
def Listing.text : Listing → List Char
  | .illegal w => ".illegal ".toList ++ printHex 34 w.toNat
  | .command l comment =>
    let ops := l.operands.map fun v => printHex (Format.printDigits l.mnemonic.format) v.toNat
    printMnemonic l.mnemonic ++ (if ops.isEmpty then [] else [' ']) ++ [',', ' '].intercalate ops ++
      (match comment with
        | none => []
        | some w => " ; ".toList ++ printHex 34 w.toNat)

end Sys2Proof.Machine
end

