-- ==== Sys2Proof/Safety.lean ====
section
/-! DEFINITION. The terms claims about runs use: the launch premises and the end of a run (spec/00_scope.md R15, R16), when
a run has gone wrong (spec/60_exceptions.md R196), the invariant of the machine, and the meaning of a command as one
relation between registers, word and response, written from the rules' closed forms and not from the machine. -/

namespace Sys2Proof.Machine

/-- The host of R16 for the whole run: no reset is asserted and every response is taken; it does nothing else. -/
def State.Cooperative (s : State) : Prop := s.pins = Pins.ready ∧ s.schedule = []

/-- R16: the sequencer is in `IDLE` with no response pending, no reset is asserted during the run, and the host takes
every response. -/
def State.Launch (s : State) : Prop := s.phase = .idle ∧ s.Cooperative

/-- R16 (b), R204: the run's first command is `LOAD`, `SEEDS` or `SEED`. -/
def State.SeedsFirst (s : State) : Prop :=
  ∃ w rest i, s.commands = w :: rest ∧ decode w = .ok i ∧ i.writesInc = true

/-- A move with which the host issues commands: it leaves some word in the host's list. -/
def HostMove.issues (m : HostMove) : Bool := m.commands.getD [] != []

/-- R15: the response to the last command has been taken and the sequencer is in `IDLE`. The last command is the last of
the whole run: no command waits in the host's list, and no later move of the host issues one (log entry 4).
R15 says nothing of a reset in the middle: here a run whose last command a reset abandoned (R201) counts as ended too,
though that response was never taken, and a command withdrawn before it was accepted is no part of the run (log entry 18,
DESIGN CHOICE). -/
structure State.RunEnded (s : State) : Prop where
  idle : s.phase = .idle
  noneWaiting : s.commands = []
  noneToCome : ∀ m ∈ s.schedule, m.issues = false

/-- R16 (c) for the rest of a run: `rst` is not asserted now and no later move of the host asserts it. -/
def State.NoReset (s : State) : Prop := s.pins.rst = false ∧ ∀ m ∈ s.schedule, m.pins.rst = false

/-- R196: a run in which some status byte is non-zero has gone wrong. -/
def State.goneWrong (s : State) : Bool := s.taken.any fun r => r.status != .ok

/-- Two states that agree in everything but the registers and the phase: the pins, the host's commands and plan, the
responses taken, and the model's own fields. -/
structure State.SameHost (s t : State) : Prop where
  pins : t.pins = s.pins
  commands : t.commands = s.commands
  schedule : t.schedule = s.schedule
  taken : t.taken = s.taken
  grain : t.grain = s.grain
  resets : t.resets = s.resets

/-- The meanings of a list of commands, one after another (the ports left out). -/
def execAll : List Instr → State → Host.Outcome State Fault Refusal
  | [], s => .next s
  | i :: is, s =>
    match exec i s with
    | .next t => execAll is t
    | .fault r => .fault r
    | .refused r => .refused r

/-- Two responses that are equal but for bit 0 of the data. -/
def Response.SameUpToBit0 (r r' : Response) : Prop := r'.status = r.status ∧ r'.data ||| 1 = r.data ||| 1

/-- R24: two states whose `inc` differ in bit 0 at most, and whose responses (pending and taken) then differ in bit 0 at
most; everything else is equal. -/
structure State.SameUpToIncBit (s t : State) : Prop where
  state : t.state = s.state
  inc : t.inc ||| 1 = s.inc ||| 1
  phase : t.phase = s.phase ∨ ∃ r r', s.phase = .resp r ∧ t.phase = .resp r' ∧ r.SameUpToBit0 r'
  taken : List.Forall₂ Response.SameUpToBit0 s.taken t.taken
  pins : t.pins = s.pins
  commands : t.commands = s.commands
  schedule : t.schedule = s.schedule
  grain : t.grain = s.grain
  resets : t.resets = s.resets

/-- How many commands are in the block: accepted, their response not taken (R46: at most one). -/
def Phase.inFlight : Phase → Nat
  | .idle => 0
  | .busy _ => 1
  | .resp _ => 1

/-- The state after `n` applications of `Step()` with this `inc`. -/
def stepsOn (inc : Word64) (n : Nat) (x : Word64) : Word64 := (lcg inc)^[n] x

/-- R135: the pair `(m, p)` stands for `n` steps: `m*x + p` is `n` applications of `Step()` for every `x`. -/
def IsSteps (inc m p : Word64) (n : Nat) : Prop := ∀ x, add64 (mul64 m x) p = stepsOn inc n x

/-- The context of a running `ADV` (R135): for some `k` iterations already made, the current pair is `2^k` steps, the
accumulator pair is `m` steps for the low `k` bits `m` of the operand, and `delta` is the rest of the operand. -/
def AdvCtx.Wf (inc : Word64) (c : AdvCtx) : Prop :=
  ∃ k m, k ≤ 64 ∧ m < 2 ^ k ∧ c.delta.toNat * 2 ^ k + m < 2 ^ 64 ∧
    IsSteps inc c.accMult c.accPlus m ∧ IsSteps inc c.curMult c.curPlus (2 ^ k)

/-- The contexts a running command can have (R29, R131, R151). -/
def Ctx.Wf (inc : Word64) : Ctx → Prop
  | .simple i => i.isSimple = true
  | .adv c => c.Wf inc
  | .bound w t => w ≠ 0 ∧ t.toNat = 2 ^ 32 % w.toNat

/-- A response the block can present: "With an error status, `data = 0`" (R72). -/
def Response.Wf (r : Response) : Prop := r.status ≠ .ok → r.data = 0

/-- The phases a run can be in. -/
def Phase.Wf (inc : Word64) : Phase → Prop
  | .idle => True
  | .busy ctx => ctx.Wf inc
  | .resp r => r.Wf

/-- The invariant of the machine: the phase is one the rules describe, and so is every response the host has taken. -/
def State.Inv (s : State) : Prop := s.phase.Wf s.inc ∧ ∀ r ∈ s.taken, r.Wf

/-- The two registers. -/
structure Regs where
  state : Word64
  inc : Word64
  deriving DecidableEq, Repr

/-- The registers of a state. -/
def State.regs (s : State) : Regs := { state := s.state, inc := s.inc }

/-- `Answers g w r g'`: from the registers `g` the word `w` is answered with `r` and leaves `g'`. Written from the
rules' net effects: R91 and R92 give the closed forms of seeding, R136 gives `ADV` as that many steps, R155 gives `BOUND` as
`k` rejected draws and one accepted. -/
inductive Answers : Regs → CmdWord → Response → Regs → Prop where
  | illegal {g w e} (h : decode w = .error e) : Answers g w { status := .errIllegalCmd, data := 0 } g
  | load {g w a b} (h : decode w = .ok (.load a b)) :
    Answers g w { status := .ok, data := 0 } { state := a, inc := b }
  | seeds {g w a b} (h : decode w = .ok (.seeds a b)) :
    Answers g w { status := .ok, data := 0 }
      { state := mult * ((2 * b + 1) + a) + (2 * b + 1), inc := 2 * b + 1 }
  | seed {g w a} (h : decode w = .ok (.seed a)) :
    Answers g w { status := .ok, data := 0 } { state := mult * (1 + a) + 1, inc := 1 }
  | step {g w} (h : decode w = .ok .step) :
    Answers g w { status := .ok, data := 0 } { g with state := mult * g.state + (g.inc ||| 1) }
  | next {g w} (h : decode w = .ok .next) :
    Answers g w { status := .ok, data := (xshRr g.state).setWidth 64 }
      { g with state := mult * g.state + (g.inc ||| 1) }
  | int63 {g w} (h : decode w = .ok .int63) :
    Answers g w
      { status := .ok
        data := BitVec.ofNat 64
          (((xshRr g.state).toNat % 2 ^ 31) * 2 ^ 32 + (xshRr (stepsOn g.inc 1 g.state)).toNat) }
      { g with state := stepsOn g.inc 2 g.state }
  | adv {g w a} (h : decode w = .ok (.adv a)) :
    Answers g w { status := .ok, data := 0 } { g with state := stepsOn g.inc a.toNat g.state }
  | boundZero {g w} (h : decode w = .ok (.bound 0)) :
    Answers g w { status := .errInvalidArg, data := 0 } g
  | bound {g w v} (h : decode w = .ok (.bound v)) (pos : v ≠ 0) (k : Nat)
    (rejected : ∀ j < k, (xshRr (stepsOn g.inc j g.state)).toNat < 2 ^ 32 % v.toNat)
    (accepted : 2 ^ 32 % v.toNat ≤ (xshRr (stepsOn g.inc k g.state)).toNat) :
    Answers g w
      { status := .ok, data := BitVec.ofNat 64 ((xshRr (stepsOn g.inc k g.state)).toNat % v.toNat) }
      { g with state := stepsOn g.inc (k + 1) g.state }
  | rdstate {g w} (h : decode w = .ok .rdstate) : Answers g w { status := .ok, data := g.state } g
  | rdinc {g w} (h : decode w = .ok .rdinc) : Answers g w { status := .ok, data := g.inc } g

/-- The answers to a list of commands, in order, each reading the registers the one before left (R46). -/
inductive AnswersAll : Regs → List CmdWord → List Response → Regs → Prop where
  | nil {g} : AnswersAll g [] [] g
  | cons {g w r g' ws rs g''} (first : Answers g w r g') (rest : AnswersAll g' ws rs g'') :
    AnswersAll g (w :: ws) (r :: rs) g''

end Sys2Proof.Machine
end

