-- ==== Sys2Proof/Certificates/Slice0/Obligations.lean ====
section
/-! DEFINITION. The statements for the provers. Each docstring names the rule it formalises; OBLIGATIONS.json has the
same in words. Where a statement speaks of a run, `core.run n` is `n` steps of the machine. -/

open Sys2Proof Sys2Proof.Machine

/-! ## The sequencer and the ports -/

/-- A step at a presented legal command runs it (R41, R43, R29; the grain is log entry 3, the host's turn log entry 4). -/
def Obligations.StepRunsTheCommandAtThePort : Prop :=
  (∀ (s : State) (w : CmdWord) (rest : List CmdWord) (i : Instr),
    s.pins.rst = false → s.phase = .idle → s.pins.cmdValid = true → s.commands = w :: rest →
    s.grain = .command → decode w = .ok i →
    ∃ t, exec i { s with commands := rest } = .next t ∧ step s = .next t.hostTurn) ∧
  (∀ (s : State) (nbits w : Nat) (i : Instr) (t : State),
    decodeTableWord nbits w = some i → s.schedule = [] →
    exec i { s with phase := .idle, pins := { s.pins with rst := false, cmdValid := true }, grain := .command } = .next t →
    step (s.withFetchWord nbits w) = .next t) ∧
  (∀ s : State, s.schedule = [] → s.hostTurn = s) ∧
  (∀ (s : State) (m : HostMove) (rest : List HostMove), s.schedule = m :: rest →
    s.hostTurn = { s with pins := m.pins, commands := m.commands.getD s.commands, schedule := rest })

/-- No step stops: every state has a next state (R180, R184, R187, R196, R205). -/
def Obligations.EveryStepAnswersANextState : Prop := ∀ s : State, ∃ t, step s = .next t

/-- R181: cause, by whom it is raised, effect, nothing recorded, and what follows. -/
def Obligations.IllegalCommandIsAnsweredAndForgotten : Prop :=
  (∀ w : CmdWord, (∃ e, decode w = .error e) ↔ ((opField w).toNat = 0 ∨ 0x0B ≤ (opField w).toNat)) ∧
  (∀ (i : Instr) (s t : State) (d : Word64), exec i s = .next t → t.phase ≠ .resp { status := .errIllegalCmd, data := d }) ∧
  Status.errIllegalCmd.code = 0x01 ∧
  (∀ (s : State) (w : CmdWord) (rest : List CmdWord),
    s.pins.rst = false → s.phase = .idle → s.pins.cmdValid = true → s.commands = w :: rest → s.schedule = [] →
    ((opField w).toNat = 0 ∨ 0x0B ≤ (opField w).toNat) →
    step s = .next { s with commands := rest, phase := .resp { status := .errIllegalCmd, data := 0 } } ∧
    (s.pins.rspReady = true →
      step { s with commands := rest, phase := .resp { status := .errIllegalCmd, data := 0 } } =
        .next { s with commands := rest, taken := s.taken ++ [{ status := .errIllegalCmd, data := 0 }] }))

/-- R182: cause, effect, nothing recorded. Raised with no draw and no division: only the phase changes. -/
def Obligations.ZeroBoundIsAnInvalidArgument : Prop :=
  (∀ s : State, exec (.bound 0) s = .next { s with phase := .resp { status := .errInvalidArg, data := 0 } }) ∧
  (∀ (i : Instr) (s t : State) (d : Word64),
    exec i s = .next t → t.phase = .resp { status := .errInvalidArg, data := d } → i = .bound 0 ∧ d = 0) ∧
  Status.errInvalidArg.code = 0x02 ∧
  (∀ s : State, (s.beginCommand (.bound 0)) = { s with phase := .resp { status := .errInvalidArg, data := 0 } })

/-- Reset overrides everything, in every phase (R200, R201, R32). The values are the free values of log entry 1. -/
def Obligations.ResetOverridesEverything : Prop :=
  ∀ s : State, s.pins.rst = true →
    s.cmdReady = false ∧ s.rspPort = none ∧
    ∃ t, step s = .next t ∧ t.phase = .idle ∧ t.state = Config.resetState s.resets ∧ t.inc = Config.resetInc s.resets ∧
      t.resets = s.resets + 1 ∧ t.taken = s.taken ∧ (s.schedule = [] → t.commands = s.commands ∧ t.pins = s.pins)

/-- The state right after reset: `IDLE`, nothing pending (R32, R200), and the invariant holds. The register values are the
free values of log entry 1, the ready pins and the empty command list are log entry 4. -/
def Obligations.ResetStateIsIdleAndWellFormed : Prop :=
  State.reset.phase = .idle ∧ State.reset.rspPort = none ∧ State.reset.cmdReady = true ∧
    State.reset.state = Config.resetState 0 ∧ State.reset.inc = Config.resetInc 0 ∧ State.reset.Inv

/-- The command port (R41, R43; `cmd_ready` under `rst` is R200's). -/
def Obligations.ACommandWaitsUntilTheBlockIsIdle : Prop :=
  (∀ s : State, s.cmdReady = true ↔ s.phase = .idle ∧ s.pins.rst = false) ∧
  (∀ s : State, s.cmdReady = false → ∃ t, step s = .next t ∧
    (s.schedule = [] → t.commands = s.commands) ∧
    (∀ m rest, s.schedule = m :: rest → t.pins = m.pins ∧ t.commands = m.commands.getD s.commands)) ∧
  (∀ (s : State) (w : CmdWord), s.cmdReady = true → s.cmdPort = some w → s.schedule = [] →
    ∃ t, step s = .next t ∧ s.commands = w :: t.commands ∧ t.phase ≠ .idle) ∧
  (∀ s : State, s.cmdReady = true → s.cmdPort = none → s.schedule = [] → step s = .next s)

/-- R44: what is presented, that it does not change while it waits (whatever else the host does meanwhile), the taking of
it, and the state a never-taken response leaves. -/
def Obligations.AResponseWaitsUntilItIsTaken : Prop :=
  (∀ s : State, s.pins.rst = false → ((∃ w, s.rspPort = some w) ↔ ∃ r, s.phase = .resp r)) ∧
  (∀ (s : State) (r : Response), s.pins.rst = false → s.phase = .resp r → s.rspPort = some (r.status.code ++ r.data)) ∧
  (∀ (s : State) (r : Response), s.pins.rst = false → s.phase = .resp r → s.schedule = [] →
    (s.pins.rspReady = true → step s = .next { s with phase := .idle, taken := s.taken ++ [r] }) ∧
    (s.pins.rspReady = false → ∀ n, core.run n s = .next s)) ∧
  (∀ (s : State) (r : Response), s.pins.rst = false → s.phase = .resp r → s.pins.rspReady = false →
    ∃ t, step s = .next t ∧ t.phase = .resp r)

/-- R45 as a conserved quantity of every step: a command is in the host's list, in the block, or answered; reset is the one
exception. -/
def Obligations.EveryAcceptedCommandGetsOneResponse : Prop :=
  (∀ s : State, s.pins.rst = false → s.schedule = [] → ∃ t, step s = .next t ∧
    t.commands.length + t.phase.inFlight + t.taken.length = s.commands.length + s.phase.inFlight + s.taken.length ∧
    (∃ accepted, s.commands = accepted ++ t.commands) ∧ (∃ answered, t.taken = s.taken ++ answered)) ∧
  (∀ s : State, s.pins.rst = true → s.schedule = [] → ∃ t, step s = .next t ∧
    t.commands = s.commands ∧ t.phase.inFlight = 0 ∧ t.taken = s.taken)

/-- The pc a model may have (R26): advanced by one for every response taken, by nothing else. -/
def Obligations.HostPcCountsResponsesTaken : Prop :=
  ∀ s : State, ∃ t, step s = .next t ∧
    t.hostPc = s.hostPc +
      (match s.phase with
        | .resp _ => if s.pins.rst = false ∧ s.pins.rspReady = true then 1 else 0
        | .idle => 0
        | .busy _ => 0)

/-- R29's two grains agree: the transitions of the sequencer, one by one, reach the state that `exec` answers in one
step (for `BOUND`, its first draw). -/
def Obligations.TransitionsReachWhatExecAnswers : Prop :=
  ∀ (s : State) (w : CmdWord) (rest : List CmdWord) (i : Instr),
    s.pins.rst = false → s.phase = .idle → s.pins.cmdValid = true → s.commands = w :: rest → s.schedule = [] →
    s.grain = .transition → decode w = .ok i →
    ∃ n, 1 ≤ n ∧ n ≤ 66 ∧ core.run n s = exec i { s with commands := rest }

/-- Every step keeps the invariant (R29, R71, R72, R135, R151). -/
def Obligations.EveryStepKeepsTheInvariant : Prop := ∀ s t : State, s.Inv → step s = .next t → t.Inv

/-- A run that has ended has answered its commands in order, each as the rules' closed forms say (R15, R46), under the
launch premises of R16. -/
def Obligations.AFinishedRunAnswersEveryCommandInOrder : Prop :=
  ∀ (s t : State) (n : Nat), s.Launch → core.run n s = .next t → t.RunEnded →
    ∃ rs, t.taken = s.taken ++ rs ∧ AnswersAll s.regs s.commands rs t.regs

/-- R15: the end of a run is its end. Once it has ended, whatever else the host's later moves do (short of a reset, of which R15
says nothing), the run stays ended and what is observed of it stays: the responses taken and the two registers. The host's
moves are log entry 4; that a run whose last command an earlier reset abandoned is among the ended ones is log entry 18. -/
def Obligations.AnEndedRunStaysEnded : Prop :=
  ∀ (s t : State) (n : Nat), s.RunEnded → s.NoReset → core.run n s = .next t →
    t.RunEnded ∧ t.taken = s.taken ∧ t.regs = s.regs

/-- Every run ends (R156, R184, R197): whatever the registers and the commands. -/
def Obligations.EveryRunEnds : Prop :=
  ∀ s : State, s.Launch → ∃ n t, core.run n s = .next t ∧ t.RunEnded ∧
    t.taken.length = s.taken.length + s.commands.length

/-! ## Construction and seeding -/

/-- R90: both words verbatim, no step, `RDINC` returns an even `B` even, and every later step behaves as if it were
`B | 1`. -/
def Obligations.LoadStoresBothWordsVerbatim : Prop :=
  (∀ (a b : Word64) (s : State),
    exec (.load a b) s = .next { s with state := a, inc := b, phase := .resp { status := .ok, data := 0 } }) ∧
  (∀ (a b : Word64) (s : State), execAll [.load a b, .rdinc] s =
    .next { s with state := a, inc := b, phase := .resp { status := .ok, data := b } }) ∧
  (∀ (a b : Word64) (s : State), execAll [.load a b, .rdstate] s =
    .next { s with state := a, inc := b, phase := .resp { status := .ok, data := a } }) ∧
  (∀ (a b : Word64) (n : Nat) (s : State), ∃ t u, execAll (.load a b :: List.replicate n .step) s = .next t ∧
    execAll (.load a (b ||| 1) :: List.replicate n .step) s = .next u ∧ t.state = u.state)

/-- R91: the net effect of the five actions; the old registers are not read. -/
def Obligations.SeedsLeavesThePrimedState : Prop :=
  ∀ (a b : Word64) (s : State),
    exec (.seeds a b) s = .next { s with
      state := 0x5851F42D4C957F2D * ((2 * b + 1) + a) + (2 * b + 1)
      inc := 2 * b + 1
      phase := .resp { status := .ok, data := 0 } }

/-- R92: `SEED` has its own net effect, and it is the effect of `SEEDS` with sequence 0. -/
def Obligations.SeedIsSeedsWithSequenceZero : Prop :=
  ∀ (a : Word64) (s : State),
    exec (.seed a) s = .next { s with
      state := 0x5851F42D4C957F2D * (1 + a) + 1
      inc := 1
      phase := .resp { status := .ok, data := 0 } } ∧
    exec (.seed a) s = exec (.seeds a 0) s

/-- R25: bit 63 of the sequence value is lost and nothing else is, so there are 2^63 seeded increments, all odd. -/
def Obligations.SequenceValuesSelectStreamsByTheirLow63Bits : Prop :=
  (∀ (a a' q q' : Word64) (s s' t t' : State), exec (.seeds a q) s = .next t → exec (.seeds a' q') s' = .next t' →
    (t.inc = t'.inc ↔ q.toNat % 2 ^ 63 = q'.toNat % 2 ^ 63)) ∧
  (∀ v : Word64, v.getLsbD 0 = true → ∃ q : Word64, ∀ (a : Word64) (s : State), ∃ t, exec (.seeds a q) s = .next t ∧ t.inc = v)

/-- R95: after `SEEDS` or `SEED`, `inc` is odd; after `LOAD` it is `B`; no other command writes it. -/
def Obligations.IncIsWrittenByThreeCommandsOnly : Prop :=
  (∀ (a b : Word64) (s : State), ∃ t, exec (.seeds a b) s = .next t ∧ t.inc.getLsbD 0 = true) ∧
  (∀ (a : Word64) (s : State), ∃ t, exec (.seed a) s = .next t ∧ t.inc.getLsbD 0 = true) ∧
  (∀ (a b : Word64) (s : State), ∃ t, exec (.load a b) s = .next t ∧ t.inc = b) ∧
  (∀ (i : Instr) (s : State), i.writesInc = false → ∃ t, exec i s = .next t ∧ t.inc = s.inc)

/-- R22 and R95 for the whole machine: a step that changes `inc` is a reset, the running of one of the three commands just
accepted, or the last transition of one of them. -/
def Obligations.AStepChangesIncOnlyByResetOrSeeding : Prop :=
  ∀ s t : State, step s = .next t → t.inc ≠ s.inc →
    s.pins.rst = true ∨ ∃ i : Instr, i.writesInc = true ∧
      (s.phase = .busy (.simple i) ∨ (s.phase = .idle ∧ ∃ w, s.cmdPort = some w ∧ decode w = .ok i))

/-- R34, R93, R96: after one of the three commands nothing depends on the registers before it, for any number of steps.
The command-grain clause allows any schedule, hence later resets; that the two runs are equal past a reset is no rule (R32
forbids assuming it) but the model's choice of the reset values as a function of the reset's number (log entry 1). -/
def Obligations.SeedingForgetsThePast : Prop :=
  ∀ (s : State) (x y : Word64) (n : Nat), s.pins.rst = false → s.phase = .idle → s.pins.cmdValid = true → s.SeedsFirst →
    (s.grain = .command → core.run (n + 1) s = core.run (n + 1) { s with state := x, inc := y }) ∧
    (s.grain = .transition → s.schedule = [] →
      core.run (n + 2) s = core.run (n + 2) { s with state := x, inc := y })

/-- R23, R24: `inc` and `inc | 1` cannot be told apart but by `RDINC`, in bit 0 of its data. That the second clause goes on
past a reset is no rule (R16 leaves resets out, R32 forbids assuming equal values) but the model's choice of the reset values
as a function of the reset's number (log entry 1). -/
def Obligations.EvenAndOddIncrementsDifferOnlyInReadback : Prop :=
  (∀ (i : Instr) (s s' : State), s.SameUpToIncBit s' → i ≠ .rdinc → ∃ t t', exec i s = .next t ∧ exec i s' = .next t' ∧
    t'.phase = t.phase ∧ t'.state = t.state) ∧
  (∀ (s s' : State) (n : Nat), s.SameUpToIncBit s' →
    ∃ t t', core.run n s = .next t ∧ core.run n s' = .next t' ∧ t.SameUpToIncBit t')

/-! ## The step and the output -/

/-- R100, R101: `STEP` leaves `state*MULT + (inc|1)` modulo 2^64, the state `NEXT` leaves too, and answers 0. -/
def Obligations.StepMultipliesAndAdds : Prop :=
  ∀ s : State,
    exec .step s = .next { s with
      state := 0x5851F42D4C957F2D * s.state + (s.inc ||| 1)
      phase := .resp { status := .ok, data := 0 } } ∧
    ∃ u, exec .next s = .next u ∧ u.state = 0x5851F42D4C957F2D * s.state + (s.inc ||| 1)

/-- R103: the laws of `Step()`. -/
def Obligations.LcgStepIsABijection : Prop :=
  (∀ inc : Word64, Function.Bijective (lcg inc)) ∧
  (∀ inc x : Word64, lcg (inc ^^^ 1) x = lcg inc x) ∧
  (∀ inc : Word64, lcg inc 0 = inc ||| 1) ∧
  mult * 0xC097EF87329E28A5 = 1

/-- R104: every step sequence returns to its start after exactly 2^64 steps and not before. -/
def Obligations.StepSequencesHavePeriodTwoPow64 : Prop :=
  ∀ (inc x : Word64) (n : Nat), stepsOn inc n x = x ↔ 2 ^ 64 ∣ n

/-- R112: `ror32` is the masked-shift formula with both distances in [0, 31], and it is the rotate for every distance
from 0 to 31, the identity for 0. -/
def Obligations.RotateRightMovesBitJPlusRToJ : Prop :=
  (∀ v r : Word32, ror32 v r = (v >>> r.toNat) ||| (v <<< ((-r) &&& 31).toNat)) ∧
  (∀ r : Word32, r.toNat < 32 → ((-r) &&& 31).toNat = (32 - r.toNat) % 32) ∧
  (∀ v r : Word32, r.toNat < 32 → ∀ j, j < 32 → (ror32 v r).getLsbD j = v.getLsbD ((j + r.toNat) % 32)) ∧
  (∀ v : Word32, ror32 v 0 = v)

/-- R110, R111, R112 together: every bit of the output in bits of the state. -/
def Obligations.XshRrBitByBit : Prop :=
  (∀ (x : Word64) (j : Nat), j < 32 →
    (xorshifted x).getLsbD j = if j ≤ 18 then (x.getLsbD (j + 27) ^^ x.getLsbD (j + 45)) else x.getLsbD (j + 27)) ∧
  (∀ (x : Word64) (j : Nat), j < 32 →
    (xshRr x).getLsbD j =
      let k := (j + x.toNat / 2 ^ 59) % 32
      if k ≤ 18 then (x.getLsbD (k + 27) ^^ x.getLsbD (k + 45)) else x.getLsbD (k + 27))

/-- R115: every 32-bit value is the output of exactly 2^32 states. -/
def Obligations.EveryOutputHasTwoPow32States : Prop :=
  ∀ v : Word32, ((Finset.range (2 ^ 64)).filter fun n => xshRr (BitVec.ofNat 64 n) = v).card = 2 ^ 32

/-- R113, R114: `NEXT` answers the output of the state before the step. -/
def Obligations.NextAnswersTheOutputOfTheOldState : Prop :=
  ∀ s : State,
    exec .next s = .next { s with
      state := 0x5851F42D4C957F2D * s.state + (s.inc ||| 1)
      phase := .resp { status := .ok, data := (xshRr s.state).setWidth 64 } }

/-- R116: two draws, the earlier one high, bit 63 clear; the state of two `NEXT` commands. -/
def Obligations.Int63JoinsTwoDrawsEarlierHigh : Prop :=
  ∀ s : State,
    let s1 := 0x5851F42D4C957F2D * s.state + (s.inc ||| 1)
    ∃ d : Word64,
      exec .int63 s = .next { s with
        state := 0x5851F42D4C957F2D * s1 + (s.inc ||| 1)
        phase := .resp { status := .ok, data := d } } ∧
      d.getLsbD 63 = false ∧
      (∀ j, j < 31 → d.getLsbD (32 + j) = (xshRr s.state).getLsbD j) ∧
      (∀ j, j < 32 → d.getLsbD j = (xshRr s1).getLsbD j) ∧
      ∃ u, execAll [.next, .next] s = .next u ∧ u.state = 0x5851F42D4C957F2D * s1 + (s.inc ||| 1) ∧ u.inc = s.inc

/-! ## Jump-ahead -/

/-- R131: the context an accepted `ADV` starts with, when every transition is a step. -/
def Obligations.AdvStartsFromTheIdentityAndOneStep : Prop :=
  ∀ (s : State) (w : CmdWord) (rest : List CmdWord) (a : Word64),
    s.pins.rst = false → s.phase = .idle → s.pins.cmdValid = true → s.commands = w :: rest → s.schedule = [] →
    s.grain = .transition → decode w = .ok (.adv a) →
    step s = .next { s with
      commands := rest
      phase := .busy (.adv
        { delta := a, accMult := 1, accPlus := 0, curMult := 0x5851F42D4C957F2D, curPlus := s.inc ||| 1 }) }

/-- R132, R134: one transition of a running `ADV` is one iteration while `delta != 0`, and then the final assignment. -/
def Obligations.AdvTransitionIsOneIterationOrTheEnd : Prop :=
  ∀ (s : State) (c : AdvCtx), s.pins.rst = false → s.phase = .busy (.adv c) → s.schedule = [] →
    (c.delta ≠ 0 → c.delta.getLsbD 0 = true →
      step s = .next { s with phase := .busy (.adv
        { delta := c.delta >>> 1
          accMult := c.accMult * c.curMult
          accPlus := c.accPlus * c.curMult + c.curPlus
          curMult := c.curMult * c.curMult
          curPlus := (c.curMult + 1) * c.curPlus }) }) ∧
    (c.delta ≠ 0 → c.delta.getLsbD 0 = false →
      step s = .next { s with phase := .busy (.adv
        { delta := c.delta >>> 1
          accMult := c.accMult
          accPlus := c.accPlus
          curMult := c.curMult * c.curMult
          curPlus := (c.curMult + 1) * c.curPlus }) }) ∧
    (c.delta = 0 →
      step s = .next { s with state := c.accMult * s.state + c.accPlus, phase := .resp { status := .ok, data := 0 } })

/-- R133: the number of iterations is the bit length of the operand, at most 64. -/
def Obligations.AdvIterationsAreTheBitLength : Prop :=
  (∀ (a i : Word64) (n : Nat), (advIterate^[n] (advInit a i)).delta = 0 ↔ Nat.size a.toNat ≤ n) ∧
  (∀ a : Word64, Nat.size a.toNat ≤ 64) ∧
  (∀ a : Word64, a.getLsbD 63 = true → Nat.size a.toNat = 64) ∧
  (∀ a i : Word64, advLoop 64 (advInit a i) = advIterate^[Nat.size a.toNat] (advInit a i))

/-- R135: the loop invariant in closed form, with `G(m) = 1 + a + ... + a^(m-1)` for `a = MULT`, the map that `m` steps
are, and the powers the rule lists. -/
def Obligations.AdvLoopInvariantInClosedForm : Prop :=
  let g : Nat → Word64 := fun n => ((List.range n).map fun j => mult ^ j).sum
  (∀ (a i : Word64) (k : Nat), k ≤ Nat.size a.toNat →
    let c := advIterate^[k] (advInit a (i ||| 1))
    let m := a.toNat % 2 ^ k
    c.curMult = mult ^ (2 ^ k) ∧ c.curPlus = (i ||| 1) * g (2 ^ k) ∧
    c.accMult = mult ^ m ∧ c.accPlus = (i ||| 1) * g m ∧ c.delta = a >>> k) ∧
  (∀ (i x : Word64) (m : Nat), stepsOn i m x = mult ^ m * x + (i ||| 1) * g m) ∧
  mult ^ 2 = 0x685F98A2018FADE9 ∧ mult ^ 4 = 0xFB4D3AE39272BE11 ∧ mult ^ 8 = 0xB59DDA5F38413D21 ∧
  mult ^ (2 ^ 62) = 1

/-- R136: `ADV A` leaves the state that `A` applications of `Step()` would leave, for every operand, state and `inc`. -/
def Obligations.AdvIsThatManySteps : Prop :=
  ∀ (a : Word64) (s : State),
    exec (.adv a) s = .next { s with
      state := (fun x => 0x5851F42D4C957F2D * x + (s.inc ||| 1))^[a.toNat] s.state
      phase := .resp { status := .ok, data := 0 } }

/-- R105: `n` consecutive `STEP` commands leave the state that one `ADV n` leaves, `inc` unchanged (and the same response,
when there is at least one). -/
def Obligations.StepsAndAdvAgree : Prop :=
  ∀ (n : Nat) (s : State), n < 2 ^ 64 → ∃ t u,
    execAll (List.replicate n .step) s = .next t ∧ exec (.adv (BitVec.ofNat 64 n)) s = .next u ∧
    t.state = u.state ∧ t.inc = s.inc ∧ u.inc = s.inc ∧ (1 ≤ n → t = u)

/-- R137, R138: jumps compose modulo 2^64, so a negative jump undoes that many draws and brings the same outputs again. -/
def Obligations.JumpsComposeAndRewind : Prop :=
  (∀ (a b : Word64) (s : State), execAll [.adv a, .adv b] s = exec (.adv (a + b)) s) ∧
  (∀ (n : Nat) (s : State), n < 2 ^ 64 →
    ∃ t u, execAll (List.replicate n .next) s = .next t ∧ exec (.adv (BitVec.ofInt 64 (-(n : Int)))) t = .next u ∧
      u.state = s.state ∧ u.inc = s.inc)

/-- R139: the corner cases of `ADV`. -/
def Obligations.AdvCornerCases : Prop :=
  (∀ s : State, exec (.adv 0) s = .next { s with phase := .resp { status := .ok, data := 0 } }) ∧
  (∀ i : Word64, advLoop 64 (advInit 0 i) = advInit 0 i) ∧
  (∀ i : Word64, (advLoop 64 (advInit 1 i)).accMult = mult ∧ (advLoop 64 (advInit 1 i)).accPlus = i) ∧
  (∀ s : State, exec (.adv 1) s = exec .step s) ∧
  (∀ i : Word64, i.getLsbD 0 = true → (advLoop 64 (advInit 0x8000000000000000 i)).accMult = 1 ∧
    (advLoop 64 (advInit 0x8000000000000000 i)).accPlus = 0x8000000000000000) ∧
  (∀ s : State, exec (.adv 0x8000000000000000) s =
    .next { s with state := s.state ^^^ 0x8000000000000000, phase := .resp { status := .ok, data := 0 } }) ∧
  (∀ i : Word64, (advLoop 64 (advInit 0xFFFFFFFFFFFFFFFF i)).accMult = 0xC097EF87329E28A5) ∧
  (∀ s : State, execAll [.step, .adv 0xFFFFFFFFFFFFFFFF] s =
    .next { s with phase := .resp { status := .ok, data := 0 } }) ∧
  (∀ (a : Word64) (s : State), ∃ t u, exec (.adv a) s = .next t ∧ exec (.adv a) { s with inc := s.inc ||| 1 } = .next u ∧
    u.state = t.state)

/-! ## Bounded sampling -/

/-- R151: the threshold and its laws. -/
def Obligations.ThresholdIsTheUnfairTail : Prop :=
  ∀ w : Word32, w ≠ 0 →
    (boundThreshold w).toNat = (2 ^ 32 - w.toNat) % 2 ^ 32 % w.toNat ∧
    (boundThreshold w).toNat = 2 ^ 32 % w.toNat ∧
    (boundThreshold w).toNat < w.toNat ∧
    (boundThreshold w).toNat ≤ 2 ^ 32 - w.toNat ∧
    (boundThreshold w).toNat < 2 ^ 31 ∧
    (boundThreshold w = 0 ↔ ∃ k, w.toNat = 2 ^ k)

/-- R150, R153, R154: a draw of `BOUND W`, `W > 0`, the first or a later one, is accepted and answers, or is rejected and
the command runs on with its context unchanged, one step consumed. -/
def Obligations.BoundAcceptsOrRejectsADraw : Prop :=
  ∀ (w : Word32) (s : State), w ≠ 0 →
    (2 ^ 32 % w.toNat ≤ (xshRr s.state).toNat →
      exec (.bound w) s = .next { s with
        state := 0x5851F42D4C957F2D * s.state + (s.inc ||| 1)
        phase := .resp { status := .ok, data := BitVec.ofNat 64 ((xshRr s.state).toNat % w.toNat) } }) ∧
    ((xshRr s.state).toNat < 2 ^ 32 % w.toNat →
      exec (.bound w) s = .next { s with
        state := 0x5851F42D4C957F2D * s.state + (s.inc ||| 1)
        phase := .busy (.bound w (BitVec.ofNat 32 (2 ^ 32 % w.toNat))) }) ∧
    (∀ threshold : Word32, s.pins.rst = false → s.phase = .busy (.bound w threshold) → s.schedule = [] →
      (threshold.toNat ≤ (xshRr s.state).toNat →
        step s = .next { s with
          state := 0x5851F42D4C957F2D * s.state + (s.inc ||| 1)
          phase := .resp { status := .ok, data := BitVec.ofNat 64 ((xshRr s.state).toNat % w.toNat) } }) ∧
      ((xshRr s.state).toNat < threshold.toNat →
        step s = .next { s with
          state := 0x5851F42D4C957F2D * s.state + (s.inc ||| 1)
          phase := .busy (.bound w threshold) }))

/-- R155: `BOUND W` consumes `k + 1` draws, `k` the number of consecutive draws below the threshold, and leaves the start
state advanced by `k + 1` steps. -/
def Obligations.BoundConsumesTheRejectedDrawsAndOne : Prop :=
  ∀ (w : Word32) (s : State) (k : Nat), w ≠ 0 → s.pins.rst = false → s.schedule = [] →
    (∀ j < k, (xshRr (stepsOn s.inc j s.state)).toNat < 2 ^ 32 % w.toNat) →
    2 ^ 32 % w.toNat ≤ (xshRr (stepsOn s.inc k s.state)).toNat →
    ∃ t, exec (.bound w) s = .next t ∧
      core.run k t = .next { s with
        state := stepsOn s.inc (k + 1) s.state
        phase := .resp
          { status := .ok, data := BitVec.ofNat 64 ((xshRr (stepsOn s.inc k s.state)).toNat % w.toNat) } }

/-- R156: the loop ends for every `state`, `inc` and `W > 0`: some draw is accepted. -/
def Obligations.EveryBoundEnds : Prop :=
  ∀ (w : Word32) (s : State), w ≠ 0 → s.pins.rst = false → s.schedule = [] →
    ∃ t n u d, exec (.bound w) s = .next t ∧ core.run n t = .next u ∧ u.phase = .resp { status := .ok, data := d } ∧
      d.toNat < w.toNat ∧ u.inc = s.inc

/-- R157: with status `OK`, `data < W`, whichever draw is accepted. -/
def Obligations.SamplesAreBelowTheBound : Prop :=
  ∀ (w : Word32) (s t : State) (d : Word64), w ≠ 0 →
    (exec (.bound w) s = .next t → t.phase = .resp { status := .ok, data := d } → d.toNat < w.toNat) ∧
    (∀ threshold : Word32, s.pins.rst = false → s.phase = .busy (.bound w threshold) → step s = .next t →
      t.phase = .resp { status := .ok, data := d } → d.toNat < w.toNat)

/-- R158: the accepted draws are a multiple of `W` in number, and each residue is the sample of equally many of them. -/
def Obligations.AcceptedDrawsGiveEachResidueEquallyOften : Prop :=
  ∀ w : Word32, w ≠ 0 →
    w.toNat ∣ 2 ^ 32 - (boundThreshold w).toNat ∧
    ∀ v : Word32, v.toNat < w.toNat →
      ((Finset.range (2 ^ 32)).filter fun r =>
        (boundThreshold w).toNat ≤ r ∧ umod32 (BitVec.ofNat 32 r) w = v).card =
        (2 ^ 32 - (boundThreshold w).toNat) / w.toNat

/-- R159: the bounds of the corner-case table. -/
def Obligations.BoundCornerCases : Prop :=
  (∀ s : State, exec (.bound 1) s = .next { s with
    state := 0x5851F42D4C957F2D * s.state + (s.inc ||| 1), phase := .resp { status := .ok, data := 0 } }) ∧
  (∀ (s : State) (k : Nat), 1 ≤ k → k ≤ 31 →
    exec (.bound (BitVec.ofNat 32 (2 ^ k))) s = .next { s with
      state := 0x5851F42D4C957F2D * s.state + (s.inc ||| 1)
      phase := .resp
        { status := .ok, data := ((xshRr s.state) &&& (BitVec.ofNat 32 (2 ^ k) - 1)).setWidth 64 } }) ∧
  boundThreshold 6 = 4 ∧ boundThreshold 0x80000001 = 0x7FFFFFFF ∧ boundThreshold 0xFFFFFFFF = 1 ∧
  (∀ s : State, xshRr s.state ≠ 0 → exec (.bound 0xFFFFFFFF) s = .next { s with
    state := 0x5851F42D4C957F2D * s.state + (s.inc ||| 1)
    phase := .resp
      { status := .ok
        data := if xshRr s.state = 0xFFFFFFFF then 0 else (xshRr s.state).setWidth 64 } })

/-! ## Reading, side effects, frames -/

/-- R170, R171: the raw words, `inc` verbatim; nothing is written. -/
def Obligations.ReadbackAnswersTheRawWords : Prop :=
  ∀ s : State,
    exec .rdstate s = .next { s with phase := .resp { status := .ok, data := s.state } } ∧
    exec .rdinc s = .next { s with phase := .resp { status := .ok, data := s.inc } } ∧
    execAll [.rdstate, .rdstate] s = exec .rdstate s ∧ execAll [.rdinc, .rdinc] s = exec .rdinc s

/-- R172: the words read from one block and loaded into another, in any state, make it the same generator: every later
command answers the same and leaves the same words. -/
def Obligations.ReadAndLoadReproducesTheGenerator : Prop :=
  ∀ s other : State, ∃ a b t u v w,
    exec .rdstate s = .next t ∧ t.phase = .resp { status := .ok, data := a } ∧
    exec .rdinc t = .next u ∧ u.phase = .resp { status := .ok, data := b } ∧
    exec (.load a b) other = .next v ∧ v.state = s.state ∧ v.inc = s.inc ∧
    exec (.load a b) u = .next w ∧ w.state = s.state ∧ w.inc = s.inc ∧
    ∀ i : Instr, ∃ x y, exec i s = .next x ∧ exec i v = .next y ∧ y.phase = x.phase ∧ y.state = x.state ∧ y.inc = x.inc

/-- R54: the commands that are idempotent, `BOUND 0` among them (its row says it writes nothing). -/
def Obligations.IdempotentCommands : Prop :=
  ∀ (i : Instr) (s : State),
    (i.writesInc = true ∨ i = .rdstate ∨ i = .rdinc ∨ i = .adv 0 ∨ i = .bound 0) → execAll [i, i] s = exec i s

/-- The frame of the commands that step (R21, R22, R54): `STEP`, `NEXT`, `INT63`, `ADV`, `BOUND` write `state` and the
phase; `inc` and all the host's side stay. There are no flags and there is no memory (R27, R31). -/
def Obligations.FrameOfTheSteppingCommands : Prop :=
  ∀ (s : State) (i : Instr),
    (i = .step ∨ i = .next ∨ i = .int63 ∨ (∃ a, i = .adv a) ∨ (∃ w, i = .bound w)) →
    ∃ t, exec i s = .next t ∧ t.inc = s.inc ∧ s.SameHost t

/-- The frame of `LOAD`, `SEEDS`, `SEED`: they write the two registers and the phase. -/
def Obligations.FrameOfTheSeedingCommands : Prop :=
  ∀ (s : State) (i : Instr), ((∃ a b, i = .load a b) ∨ (∃ a b, i = .seeds a b) ∨ (∃ a, i = .seed a)) →
    ∃ t, exec i s = .next t ∧ t.phase = .resp { status := .ok, data := 0 } ∧ s.SameHost t

/-- The frame of the commands that write no register: `RDSTATE`, `RDINC`, and `BOUND` with `W = 0`. -/
def Obligations.FrameOfTheReadingCommands : Prop :=
  ∀ (s : State) (i : Instr), (i = .rdstate ∨ i = .rdinc ∨ i = .bound 0) →
    ∃ t, exec i s = .next t ∧ t.state = s.state ∧ t.inc = s.inc ∧ s.SameHost t

/-! ## Encoding -/

/-- Decoding an encoded command gives it back, every operand at every value (R60, R62, R64, R76). -/
def Obligations.DecodeOfEncodeIsTheCommand : Prop := ∀ i : Instr, decode (encode i) = .ok i

/-- R65, R66: a word is the command of a row exactly when `w & mask == match`; it is illegal when it is no row's. -/
def Obligations.DecodeFollowsTheOpcodeMap : Prop :=
  (∀ (w : CmdWord) (row : OpRow), row ∈ opcodeTable →
    ((∃ i, decode w = .ok i ∧ i.mnemonic = row.mnemonic) ↔ w &&& row.mask = row.pattern)) ∧
  (∀ w : CmdWord, (∃ e, decode w = .error e) ↔ ∀ row ∈ opcodeTable, w &&& row.mask ≠ row.pattern)

/-- R62, R63: the bits a format ignores have no effect and the bits it uses are all read; the canonical word is the word
with its ignored bits zero. -/
def Obligations.DecodeReadsExactlyTheUsedBits : Prop :=
  ∀ (w : CmdWord) (i : Instr), decode w = .ok i →
    encode i = w &&& i.mnemonic.format.usedMask ∧
    (∀ w' : CmdWord, decode w' = .ok i ↔
      w' &&& i.mnemonic.format.usedMask = w &&& i.mnemonic.format.usedMask) ∧
    (isCanonical w = true ↔ w &&& ~~~i.mnemonic.format.usedMask = 0)

/-- R76: the ten words written out in the specification decode to their commands. -/
def Obligations.TheTenExampleWordsDecode : Prop :=
  decode 0x010DDC0FFEEBADF00D00000000CAFEBABE = .ok (.load 0x0DDC0FFEEBADF00D 0xCAFEBABE) ∧
  decode 0x02000000000000002A0000000000000036 = .ok (.seeds 42 54) ∧
  decode 0x03000000000000002A0000000000000000 = .ok (.seed 42) ∧
  decode 0x0400000000000000000000000000000000 = .ok .step ∧
  decode 0x0500000000000000000000000000000000 = .ok .next ∧
  decode 0x0600000000000000000000000000000000 = .ok .int63 ∧
  decode 0x07FFFFFFFFFFFFFFFA0000000000000000 = .ok (.adv (-6)) ∧
  decode 0x0800000000000000060000000000000000 = .ok (.bound 6) ∧
  decode 0x0900000000000000000000000000000000 = .ok .rdstate ∧
  decode 0x0A00000000000000000000000000000000 = .ok .rdinc

/-- R70, R71: the response word, its fields, its three statuses. -/
def Obligations.ResponseWordCarriesStatusAndData : Prop :=
  (∀ r : Response, r.toWord.extractLsb' 64 8 = r.status.code ∧ r.toWord.extractLsb' 0 64 = r.data ∧
    Response.ofWord r.toWord = some r) ∧
  (∀ (w : RspWord) (r : Response), Response.ofWord w = some r → r.toWord = w) ∧
  (∀ w : RspWord, 0x03 ≤ (w.extractLsb' 64 8).toNat → Response.ofWord w = none) ∧
  Status.ok.code = 0x00 ∧ Status.errIllegalCmd.code = 0x01 ∧ Status.errInvalidArg.code = 0x02

/-- R72: the data field of every response a command answers. -/
def Obligations.DataFieldOfEveryResponse : Prop :=
  ∀ (i : Instr) (s t : State) (r : Response), exec i s = .next t → t.phase = .resp r →
    (r.status ≠ .ok → r.data = 0) ∧
    (r.status = .ok →
      (i = .next → r.data = (xshRr s.state).setWidth 64) ∧
      (∀ w, i = .bound w → r.data.toNat < 2 ^ 32) ∧
      (i = .int63 → r.data.getLsbD 63 = false) ∧
      (i = .rdstate → r.data = s.state) ∧
      (i = .rdinc → r.data = s.inc) ∧
      ((i = .step ∨ (∃ a, i = .adv a) ∨ i.writesInc = true) → r.data = 0))

/-- R73, R74, R76: a line with the operands its format takes, each in its range, is assembled, and no other; every command
has a line. -/
def Obligations.AssemblerTakesExactlyTheWellFormedLines : Prop :=
  (∀ l : AsmLine, l.wellFormed = true → ∃ i, assemble l = some i ∧ i.mnemonic = l.mnemonic) ∧
  (∀ l : AsmLine, l.wellFormed = false → assemble l = none) ∧
  (∀ i : Instr, assemble (lineOf i) = some i) ∧
  (∀ n : Nat, 1 ≤ n → n ≤ 2 ^ 63 →
    assemble { mnemonic := .ADV, operands := [-(n : Int)] } = some (.adv (BitVec.ofNat 64 (2 ^ 64 - n))))

/-- R78: the disassembler prints a line that assembles to the word's command, adds the word exactly when an ignored bit is
set, and prints a reserved opcode as illegal. -/
def Obligations.DisassemblyNamesTheCommandAndTheIgnoredBits : Prop :=
  (∀ (w : CmdWord) (i : Instr), decode w = .ok i →
    ∃ l c, disassemble w = .command l c ∧ assemble l = some i ∧
      (c = none ↔ w &&& ~~~i.mnemonic.format.usedMask = 0) ∧ (c ≠ none → c = some w)) ∧
  (∀ (w : CmdWord) (e : DecodeError), decode w = .error e → disassemble w = .illegal w)
end

