-- ==== Sys2Proof/Laws/Decode.lean ====
section
/-! SUPPORT. What the fields of a command word are, so that no later proof takes a word apart bit by bit. -/

namespace Sys2Proof

/-- The opcode field of a word made of fields. -/
@[simp] theorem opField_cmdWord (o : Byte) (a b : Word64) : opField (cmdWord o a b) = o := by
  unfold opField cmdWord
  apply BitVec.eq_of_getLsbD_eq
  intro i hi
  rw [BitVec.getLsbD_extractLsb', BitVec.getLsbD_append, BitVec.getLsbD_append]
  simp [hi, show ¬ 128 + i < 64 by omega, show ¬ 128 + i - 64 < 64 by omega, show 128 + i - 64 - 64 = i by omega]

/-- The first operand field of a word made of fields. -/
@[simp] theorem aField_cmdWord (o : Byte) (a b : Word64) : aField (cmdWord o a b) = a := by
  unfold aField cmdWord
  apply BitVec.eq_of_getLsbD_eq
  intro i hi
  rw [BitVec.getLsbD_extractLsb', BitVec.getLsbD_append, BitVec.getLsbD_append]
  simp [hi]

/-- The second operand field of a word made of fields. -/
@[simp] theorem bField_cmdWord (o : Byte) (a b : Word64) : bField (cmdWord o a b) = b := by
  unfold bField cmdWord
  apply BitVec.eq_of_getLsbD_eq
  intro i hi
  rw [BitVec.getLsbD_extractLsb', BitVec.getLsbD_append, BitVec.getLsbD_append]
  simp [hi]

/-- R61: the bound is the low half of the first operand. -/
theorem wField_eq (w : CmdWord) : wField w = (aField w).setWidth 32 := by
  unfold wField aField
  apply BitVec.eq_of_getLsbD_eq
  intro i hi
  simp [BitVec.getLsbD_extractLsb', hi]; omega

/-- A word is its three fields (R60). -/
theorem cmdWord_fields (w : CmdWord) : cmdWord (opField w) (aField w) (bField w) = w := by
  unfold opField aField bField cmdWord
  apply BitVec.eq_of_getLsbD_eq
  intro i hi
  simp only [BitVec.getLsbD_extractLsb', BitVec.getLsbD_append]
  by_cases h1 : i < 64
  · simp [h1]
  · by_cases h2 : i - 64 < 64
    · simp [h1, h2, show 64 + (i - 64) = i by omega]
    · simp [h1, h2, show i - 64 - 64 < 8 by omega, show 128 + (i - 64 - 64) = i by omega]

/-- Every mnemonic is named by its opcode (R66). -/
@[simp] theorem ofOpcode_opcode (m : Mnemonic) : Mnemonic.ofOpcode m.opcode = some m := by cases m <;> rfl

/-- An opcode names one mnemonic only (R66). -/
theorem ofOpcode_eq_some {o : Byte} {m : Mnemonic} (h : Mnemonic.ofOpcode o = some m) : o = m.opcode := by
  unfold Mnemonic.ofOpcode at h
  have : o = BitVec.ofNat 8 o.toNat := by simp
  rw [this]
  generalize o.toNat = n at *
  rcases n with _ | _ | _ | _ | _ | _ | _ | _ | _ | _ | _ | n <;> simp at h <;> subst h <;> rfl

/-- Building a command keeps its mnemonic. -/
@[simp] theorem build_mnemonic (m : Mnemonic) (a b : Word64) (w : Word32) : (m.build a b w).mnemonic = m := by
  cases m <;> rfl

/-- Everything decoding to a command says (R62, R65). -/
theorem decode_eq_ok_iff (w : CmdWord) (i : Instr) :
    decode w = .ok i ↔
      opField w = i.mnemonic.opcode ∧ i = i.mnemonic.build (aField w) (bField w) (wField w) := by
  unfold decode
  constructor
  · intro h
    cases hm : Mnemonic.ofOpcode (opField w) with
    | none => rw [hm] at h; cases h
    | some m =>
      rw [hm] at h
      injection h with h
      have : i.mnemonic = m := by rw [← h, build_mnemonic]
      rw [this]
      exact ⟨ofOpcode_eq_some hm, h.symm⟩
  · rintro ⟨h1, h2⟩
    rw [h1, ofOpcode_opcode]
    exact congrArg _ h2.symm

/-- The fields of the canonical word. -/
@[simp] theorem opField_encode (i : Instr) : opField (encode i) = i.mnemonic.opcode := opField_cmdWord _ _ _

@[simp] theorem aField_encode (i : Instr) : aField (encode i) = i.fieldA := aField_cmdWord _ _ _

@[simp] theorem bField_encode (i : Instr) : bField (encode i) = i.fieldB := bField_cmdWord _ _ _

end Sys2Proof
end

