-- ==== Sys2Proof/Laws/State.lean ====
section
/-! SUPPORT. One lemma per field per update of State, each true by rfl, so that no later proof unfolds a record update. -/

namespace Sys2Proof.Machine

variable (s : State)

@[simp] theorem State.setReg_state_state (v : Word64) : (s.setReg .state v).state = v := rfl
@[simp] theorem State.setReg_state_inc (v : Word64) : (s.setReg .state v).inc = s.inc := rfl
@[simp] theorem State.setReg_state_phase (v : Word64) : (s.setReg .state v).phase = s.phase := rfl
@[simp] theorem State.setReg_state_pins (v : Word64) : (s.setReg .state v).pins = s.pins := rfl
@[simp] theorem State.setReg_state_commands (v : Word64) : (s.setReg .state v).commands = s.commands := rfl
@[simp] theorem State.setReg_state_schedule (v : Word64) : (s.setReg .state v).schedule = s.schedule := rfl
@[simp] theorem State.setReg_state_taken (v : Word64) : (s.setReg .state v).taken = s.taken := rfl
@[simp] theorem State.setReg_state_grain (v : Word64) : (s.setReg .state v).grain = s.grain := rfl
@[simp] theorem State.setReg_state_resets (v : Word64) : (s.setReg .state v).resets = s.resets := rfl

@[simp] theorem State.setReg_inc_state (v : Word64) : (s.setReg .inc v).state = s.state := rfl
@[simp] theorem State.setReg_inc_inc (v : Word64) : (s.setReg .inc v).inc = v := rfl
@[simp] theorem State.setReg_inc_phase (v : Word64) : (s.setReg .inc v).phase = s.phase := rfl
@[simp] theorem State.setReg_inc_pins (v : Word64) : (s.setReg .inc v).pins = s.pins := rfl
@[simp] theorem State.setReg_inc_commands (v : Word64) : (s.setReg .inc v).commands = s.commands := rfl
@[simp] theorem State.setReg_inc_schedule (v : Word64) : (s.setReg .inc v).schedule = s.schedule := rfl
@[simp] theorem State.setReg_inc_taken (v : Word64) : (s.setReg .inc v).taken = s.taken := rfl
@[simp] theorem State.setReg_inc_grain (v : Word64) : (s.setReg .inc v).grain = s.grain := rfl
@[simp] theorem State.setReg_inc_resets (v : Word64) : (s.setReg .inc v).resets = s.resets := rfl

@[simp] theorem State.respond_state (st : Status) (d : Word64) : (s.respond st d).state = s.state := rfl
@[simp] theorem State.respond_inc (st : Status) (d : Word64) : (s.respond st d).inc = s.inc := rfl
@[simp] theorem State.respond_phase (st : Status) (d : Word64) : (s.respond st d).phase = .resp { status := st, data := d } := rfl
@[simp] theorem State.respond_pins (st : Status) (d : Word64) : (s.respond st d).pins = s.pins := rfl
@[simp] theorem State.respond_commands (st : Status) (d : Word64) : (s.respond st d).commands = s.commands := rfl
@[simp] theorem State.respond_schedule (st : Status) (d : Word64) : (s.respond st d).schedule = s.schedule := rfl
@[simp] theorem State.respond_taken (st : Status) (d : Word64) : (s.respond st d).taken = s.taken := rfl
@[simp] theorem State.respond_grain (st : Status) (d : Word64) : (s.respond st d).grain = s.grain := rfl
@[simp] theorem State.respond_resets (st : Status) (d : Word64) : (s.respond st d).resets = s.resets := rfl

@[simp] theorem State.raise_state (e : CmdError) : (s.raise e).state = s.state := rfl
@[simp] theorem State.raise_inc (e : CmdError) : (s.raise e).inc = s.inc := rfl
@[simp] theorem State.raise_phase (e : CmdError) : (s.raise e).phase = .resp { status := e.status, data := 0 } := rfl
@[simp] theorem State.raise_pins (e : CmdError) : (s.raise e).pins = s.pins := rfl
@[simp] theorem State.raise_commands (e : CmdError) : (s.raise e).commands = s.commands := rfl
@[simp] theorem State.raise_schedule (e : CmdError) : (s.raise e).schedule = s.schedule := rfl
@[simp] theorem State.raise_taken (e : CmdError) : (s.raise e).taken = s.taken := rfl
@[simp] theorem State.raise_grain (e : CmdError) : (s.raise e).grain = s.grain := rfl
@[simp] theorem State.raise_resets (e : CmdError) : (s.raise e).resets = s.resets := rfl

@[simp] theorem State.lcgStep_state : (s.lcgStep).state = lcg s.inc s.state := rfl
@[simp] theorem State.lcgStep_inc : (s.lcgStep).inc = s.inc := rfl
@[simp] theorem State.lcgStep_phase : (s.lcgStep).phase = s.phase := rfl
@[simp] theorem State.lcgStep_pins : (s.lcgStep).pins = s.pins := rfl
@[simp] theorem State.lcgStep_commands : (s.lcgStep).commands = s.commands := rfl
@[simp] theorem State.lcgStep_schedule : (s.lcgStep).schedule = s.schedule := rfl
@[simp] theorem State.lcgStep_taken : (s.lcgStep).taken = s.taken := rfl
@[simp] theorem State.lcgStep_grain : (s.lcgStep).grain = s.grain := rfl
@[simp] theorem State.lcgStep_resets : (s.lcgStep).resets = s.resets := rfl

@[simp] theorem State.takeResponse_state (r : Response) : (s.takeResponse r).state = s.state := rfl
@[simp] theorem State.takeResponse_inc (r : Response) : (s.takeResponse r).inc = s.inc := rfl
@[simp] theorem State.takeResponse_phase (r : Response) : (s.takeResponse r).phase = .idle := rfl
@[simp] theorem State.takeResponse_pins (r : Response) : (s.takeResponse r).pins = s.pins := rfl
@[simp] theorem State.takeResponse_commands (r : Response) : (s.takeResponse r).commands = s.commands := rfl
@[simp] theorem State.takeResponse_schedule (r : Response) : (s.takeResponse r).schedule = s.schedule := rfl
@[simp] theorem State.takeResponse_taken (r : Response) : (s.takeResponse r).taken = s.taken ++ [r] := rfl
@[simp] theorem State.takeResponse_grain (r : Response) : (s.takeResponse r).grain = s.grain := rfl
@[simp] theorem State.takeResponse_resets (r : Response) : (s.takeResponse r).resets = s.resets := rfl

@[simp] theorem State.resetBlock_state : (s.resetBlock).state = Config.resetState s.resets := rfl
@[simp] theorem State.resetBlock_inc : (s.resetBlock).inc = Config.resetInc s.resets := rfl
@[simp] theorem State.resetBlock_phase : (s.resetBlock).phase = .idle := rfl
@[simp] theorem State.resetBlock_pins : (s.resetBlock).pins = s.pins := rfl
@[simp] theorem State.resetBlock_commands : (s.resetBlock).commands = s.commands := rfl
@[simp] theorem State.resetBlock_schedule : (s.resetBlock).schedule = s.schedule := rfl
@[simp] theorem State.resetBlock_taken : (s.resetBlock).taken = s.taken := rfl
@[simp] theorem State.resetBlock_grain : (s.resetBlock).grain = s.grain := rfl
@[simp] theorem State.resetBlock_resets : (s.resetBlock).resets = s.resets + 1 := rfl

@[simp] theorem State.popCommand_state : (s.popCommand).state = s.state := rfl
@[simp] theorem State.popCommand_inc : (s.popCommand).inc = s.inc := rfl
@[simp] theorem State.popCommand_phase : (s.popCommand).phase = s.phase := rfl
@[simp] theorem State.popCommand_pins : (s.popCommand).pins = s.pins := rfl
@[simp] theorem State.popCommand_commands : (s.popCommand).commands = s.commands.tail := rfl
@[simp] theorem State.popCommand_schedule : (s.popCommand).schedule = s.schedule := rfl
@[simp] theorem State.popCommand_taken : (s.popCommand).taken = s.taken := rfl
@[simp] theorem State.popCommand_grain : (s.popCommand).grain = s.grain := rfl
@[simp] theorem State.popCommand_resets : (s.popCommand).resets = s.resets := rfl

@[simp] theorem State.advFinish_state (c : AdvCtx) : (s.advFinish c).state = add64 (mul64 c.accMult s.state) c.accPlus := rfl
@[simp] theorem State.advFinish_inc (c : AdvCtx) : (s.advFinish c).inc = s.inc := rfl
@[simp] theorem State.advFinish_phase (c : AdvCtx) : (s.advFinish c).phase = .resp { status := .ok, data := 0 } := rfl
@[simp] theorem State.advFinish_pins (c : AdvCtx) : (s.advFinish c).pins = s.pins := rfl
@[simp] theorem State.advFinish_commands (c : AdvCtx) : (s.advFinish c).commands = s.commands := rfl
@[simp] theorem State.advFinish_schedule (c : AdvCtx) : (s.advFinish c).schedule = s.schedule := rfl
@[simp] theorem State.advFinish_taken (c : AdvCtx) : (s.advFinish c).taken = s.taken := rfl
@[simp] theorem State.advFinish_grain (c : AdvCtx) : (s.advFinish c).grain = s.grain := rfl
@[simp] theorem State.advFinish_resets (c : AdvCtx) : (s.advFinish c).resets = s.resets := rfl

@[simp] theorem State.presentNext_state (w : CmdWord) : (s.presentNext w).state = s.state := rfl
@[simp] theorem State.presentNext_inc (w : CmdWord) : (s.presentNext w).inc = s.inc := rfl
@[simp] theorem State.presentNext_phase (w : CmdWord) : (s.presentNext w).phase = .idle := rfl
@[simp] theorem State.presentNext_pins (w : CmdWord) : (s.presentNext w).pins = { s.pins with rst := false, cmdValid := true } := rfl
@[simp] theorem State.presentNext_commands (w : CmdWord) : (s.presentNext w).commands = w :: s.commands := rfl
@[simp] theorem State.presentNext_schedule (w : CmdWord) : (s.presentNext w).schedule = s.schedule := rfl
@[simp] theorem State.presentNext_taken (w : CmdWord) : (s.presentNext w).taken = s.taken := rfl
@[simp] theorem State.presentNext_grain (w : CmdWord) : (s.presentNext w).grain = .command := rfl
@[simp] theorem State.presentNext_resets (w : CmdWord) : (s.presentNext w).resets = s.resets := rfl

@[simp] theorem State.reg_state : s.reg .state = s.state := rfl
@[simp] theorem State.reg_inc : s.reg .inc = s.inc := rfl
@[simp] theorem State.oddInc_eq : s.oddInc = s.inc ||| 1 := rfl
@[simp] theorem State.draw_fst : s.draw.1 = xshRr s.state := rfl
@[simp] theorem State.draw_snd : s.draw.2 = s.lcgStep := rfl
@[simp] theorem State.withFetchWord_eq (nbits w : Nat) : s.withFetchWord nbits w = s.presentNext (tableWord nbits w) := rfl

/-- With an empty schedule the host's turn changes nothing. -/
@[simp] theorem State.hostTurn_nil (h : s.schedule = []) : s.hostTurn = s := by
  simp [State.hostTurn, h]

@[simp] theorem State.hostTurn_state : s.hostTurn.state = s.state := by
  unfold State.hostTurn; split <;> rfl
@[simp] theorem State.hostTurn_inc : s.hostTurn.inc = s.inc := by
  unfold State.hostTurn; split <;> rfl
@[simp] theorem State.hostTurn_phase : s.hostTurn.phase = s.phase := by
  unfold State.hostTurn; split <;> rfl
@[simp] theorem State.hostTurn_taken : s.hostTurn.taken = s.taken := by
  unfold State.hostTurn; split <;> rfl
@[simp] theorem State.hostTurn_grain : s.hostTurn.grain = s.grain := by
  unfold State.hostTurn; split <;> rfl
@[simp] theorem State.hostTurn_resets : s.hostTurn.resets = s.resets := by
  unfold State.hostTurn; split <;> rfl

end Sys2Proof.Machine
end

