-- ==== Sys2Proof/Laws/Ops.lean ====
section
/-! SUPPORT. One lemma per shared operation that says once what it can do: the draw of a running `BOUND`, the beginning of a
command, and `exec` itself (it always answers, and never touches the host's side). -/

namespace Sys2Proof.Machine

/-- Operations that change only registers and phase keep the host's side. -/
theorem State.SameHost.refl (s : State) : s.SameHost s := ⟨rfl, rfl, rfl, rfl, rfl, rfl⟩

/-- A draw of a running `BOUND` accepts, or rejects and runs on (R153, R154). -/
theorem State.boundDraw_cases (s : State) (w t : Word32) :
    (t.toNat ≤ (xshRr s.state).toNat ∧
      s.boundDraw w t = s.lcgStep.respond .ok (zext64 (umod32 (xshRr s.state) w))) ∨
    ((xshRr s.state).toNat < t.toNat ∧
      s.boundDraw w t = { s.lcgStep with phase := .busy (.bound w t) }) := by
  by_cases h : t.toNat ≤ (xshRr s.state).toNat
  · exact .inl ⟨h, by simp [State.boundDraw, h]⟩
  · exact .inr ⟨by omega, by simp [State.boundDraw, h]⟩

/-- The accepted case of a draw. -/
theorem State.boundDraw_accepts {s : State} {w t : Word32} (h : t.toNat ≤ (xshRr s.state).toNat) :
    s.boundDraw w t = s.lcgStep.respond .ok (zext64 (umod32 (xshRr s.state) w)) := by
  simp [State.boundDraw, h]

/-- The rejected case of a draw. -/
theorem State.boundDraw_rejects {s : State} {w t : Word32} (h : (xshRr s.state).toNat < t.toNat) :
    s.boundDraw w t = { s.lcgStep with phase := .busy (.bound w t) } := by
  simp [State.boundDraw, Nat.not_le.2 h]

/-- A draw keeps `inc` and the host's side. -/
theorem State.boundDraw_frame (s : State) (w t : Word32) :
    (s.boundDraw w t).inc = s.inc ∧ s.SameHost (s.boundDraw w t) := by
  obtain ⟨-, h⟩ | ⟨-, h⟩ := s.boundDraw_cases w t <;> rw [h] <;> exact ⟨rfl, rfl, rfl, rfl, rfl, rfl, rfl⟩

/-- `BOUND W` with `W > 0` is its first draw (R150). -/
theorem execBound_pos {w : Word32} (h : w ≠ 0) (s : State) :
    exec (.bound w) s = .next (s.boundDraw w (boundThreshold w)) := by
  simp only [exec, execBound, if_neg h]

/-- `exec` always answers a next state and keeps the host's side. -/
theorem exec_answers (i : Instr) (s : State) : ∃ t, exec i s = .next t ∧ s.SameHost t := by
  cases i with
  | bound w =>
    by_cases h : w = 0
    · subst h; exact ⟨_, rfl, rfl, rfl, rfl, rfl, rfl, rfl⟩
    · exact ⟨_, execBound_pos h s, (s.boundDraw_frame w _).2⟩
  | _ => exact ⟨_, rfl, rfl, rfl, rfl, rfl, rfl, rfl⟩

/-- Beginning a command keeps the registers and the host's side. -/
theorem State.beginCommand_frame (s : State) (i : Instr) :
    (s.beginCommand i).state = s.state ∧ (s.beginCommand i).inc = s.inc ∧ s.SameHost (s.beginCommand i) := by
  cases i with
  | bound w => simp only [State.beginCommand]; split <;> exact ⟨rfl, rfl, rfl, rfl, rfl, rfl, rfl, rfl⟩
  | _ => exact ⟨rfl, rfl, rfl, rfl, rfl, rfl, rfl, rfl⟩

/-- A command with a simple context begins with it (R29). -/
theorem State.beginCommand_simple {i : Instr} (h : i.isSimple = true) (s : State) :
    s.beginCommand i = { s with phase := .busy (.simple i) } := by
  cases i <;> first | rfl | cases h

/-- A running `ADV` makes an iteration or ends (R132, R134). -/
theorem State.advTransition_iterates {s : State} {c : AdvCtx} (h : c.delta ≠ 0) :
    s.advTransition c = { s with phase := .busy (.adv (advIterate c)) } := by
  exact if_neg h

/-- The end of a running `ADV`. -/
theorem State.advTransition_ends {s : State} {c : AdvCtx} (h : c.delta = 0) : s.advTransition c = s.advFinish c :=
  if_pos h

/-- A transition of `ADV` keeps `inc` and the host's side. -/
theorem State.advTransition_frame (s : State) (c : AdvCtx) :
    (s.advTransition c).inc = s.inc ∧ s.SameHost (s.advTransition c) := by
  unfold State.advTransition; split <;> exact ⟨rfl, rfl, rfl, rfl, rfl, rfl, rfl⟩

end Sys2Proof.Machine
end

