-- ==== Sys2Proof/Laws/PerInstr.lean ====
section
/-! SUPPORT. Statements for all commands, made per command: the canonical word has the command's opcode, its operands in the
fields its format uses, and zero in the fields it ignores (R62, R63, R66). -/

namespace Sys2Proof.Laws.CanonicalFields

/-- What a canonical word carries, read through the fields of R60. -/
def Statement (i : Instr) : Prop :=
  opField (encode i) = i.mnemonic.opcode ∧
    (i.mnemonic.format = .N → aField (encode i) = 0) ∧
    (i.mnemonic.format ≠ .AB → bField (encode i) = 0) ∧
    (i.mnemonic.format = .W → (aField (encode i)).toNat < 2 ^ 32)

theorem load (a b : Word64) : Statement (.load a b) :=
  ⟨opField_encode _, nofun, fun h => absurd rfl h, nofun⟩

theorem seeds (a b : Word64) : Statement (.seeds a b) :=
  ⟨opField_encode _, nofun, fun h => absurd rfl h, nofun⟩

theorem seed (a : Word64) : Statement (.seed a) :=
  ⟨opField_encode _, nofun, fun _ => bField_encode _, nofun⟩

theorem step : Statement .step := ⟨opField_encode _, fun _ => aField_encode _, fun _ => bField_encode _, nofun⟩

theorem next : Statement .next := ⟨opField_encode _, fun _ => aField_encode _, fun _ => bField_encode _, nofun⟩

theorem int63 : Statement .int63 := ⟨opField_encode _, fun _ => aField_encode _, fun _ => bField_encode _, nofun⟩

theorem adv (a : Word64) : Statement (.adv a) :=
  ⟨opField_encode _, nofun, fun _ => bField_encode _, nofun⟩

theorem bound (w : Word32) : Statement (.bound w) := by
  refine ⟨opField_encode _, nofun, fun _ => bField_encode _, fun _ => ?_⟩
  rw [aField_encode]
  show (w.setWidth 64).toNat < 2 ^ 32
  have := w.isLt
  rw [BitVec.toNat_setWidth]
  omega

theorem rdstate : Statement .rdstate :=
  ⟨opField_encode _, fun _ => aField_encode _, fun _ => bField_encode _, nofun⟩

theorem rdinc : Statement .rdinc :=
  ⟨opField_encode _, fun _ => aField_encode _, fun _ => bField_encode _, nofun⟩

end Sys2Proof.Laws.CanonicalFields
end

