-- ==== Sys2Proof/Laws/Sequencer.lean ====
section
/-! SUPPORT. What a transition of the block can do, said once (`transition_cases`), and its cases as equations. -/

namespace Sys2Proof.Machine

variable {s : State}

/-- A reserved opcode is answered at once, whatever the grain. -/
theorem State.accept_error {w : CmdWord} {e : DecodeError} (h : decode w = .error e) :
    s.accept w = .next (s.raise .illegalCmd) := by
  simp [State.accept, h]

/-- With command grain an accepted command runs. -/
theorem State.accept_command {w : CmdWord} {i : Instr} (h : decode w = .ok i) (g : s.grain = .command) :
    s.accept w = exec i s := by
  simp [State.accept, h, g]

/-- With transition grain an accepted command begins. -/
theorem State.accept_transition {w : CmdWord} {i : Instr} (h : decode w = .ok i) (g : s.grain = .transition) :
    s.accept w = .next (s.beginCommand i) := by
  simp [State.accept, h, g]

theorem State.transition_rst (r : s.pins.rst = true) : s.transition = .next s.resetBlock := by
  simp [State.transition, r]

theorem State.transition_idle_none (r : s.pins.rst = false) (p : s.phase = .idle) (c : s.cmdPort = none) :
    s.transition = .next s := by
  simp [State.transition, r, p, c]

theorem State.transition_idle_some {w : CmdWord} (r : s.pins.rst = false) (p : s.phase = .idle)
    (c : s.cmdPort = some w) : s.transition = s.popCommand.accept w := by
  simp [State.transition, r, p, c]

theorem State.transition_simple {i : Instr} (r : s.pins.rst = false) (p : s.phase = .busy (.simple i)) :
    s.transition = exec i s := by
  simp [State.transition, r, p]

theorem State.transition_adv {c : AdvCtx} (r : s.pins.rst = false) (p : s.phase = .busy (.adv c)) :
    s.transition = .next (s.advTransition c) := by
  simp [State.transition, r, p]

theorem State.transition_bound {w t : Word32} (r : s.pins.rst = false) (p : s.phase = .busy (.bound w t)) :
    s.transition = .next (s.boundDraw w t) := by
  simp [State.transition, r, p]

theorem State.transition_taken {x : Response} (r : s.pins.rst = false) (p : s.phase = .resp x)
    (y : s.pins.rspReady = true) : s.transition = .next (s.takeResponse x) := by
  simp [State.transition, r, p, y]

theorem State.transition_held {x : Response} (r : s.pins.rst = false) (p : s.phase = .resp x)
    (y : s.pins.rspReady = false) : s.transition = .next s := by
  simp [State.transition, r, p, y]

/-- A presented command is the first of the host's list. -/
theorem State.cmdPort_eq_some {w : CmdWord} :
    s.cmdPort = some w ↔ s.pins.cmdValid = true ∧ ∃ rest, s.commands = w :: rest := by
  unfold State.cmdPort
  cases s.pins.cmdValid <;> cases s.commands <;> simp

/-- An accepted command leaves the host's list. -/
theorem State.popCommand_cons {w : CmdWord} {rest : List CmdWord} (c : s.commands = w :: rest) :
    s.popCommand = { s with commands := rest } := by
  simp [State.popCommand, c]

/-- Everything a transition can do: it is a reset, a wait, the answer to an illegal word, a command run or begun, a
transition of a running command, or a response taken. -/
theorem State.transition_cases {t : State} (h : s.transition = .next t) :
    (s.pins.rst = true ∧ t = s.resetBlock) ∨
    (s.pins.rst = false ∧
      ((s.phase = .idle ∧ s.cmdPort = none ∧ t = s) ∨
        (∃ w e, s.phase = .idle ∧ s.cmdPort = some w ∧ decode w = .error e ∧ t = s.popCommand.raise .illegalCmd) ∨
        (∃ w i, s.phase = .idle ∧ s.cmdPort = some w ∧ decode w = .ok i ∧
          ((s.grain = .command ∧ exec i s.popCommand = .next t) ∨
            (s.grain = .transition ∧ t = s.popCommand.beginCommand i))) ∨
        (∃ i, s.phase = .busy (.simple i) ∧ exec i s = .next t) ∨
        (∃ c, s.phase = .busy (.adv c) ∧ t = s.advTransition c) ∨
        (∃ w x, s.phase = .busy (.bound w x) ∧ t = s.boundDraw w x) ∨
        (∃ r, s.phase = .resp r ∧
          ((s.pins.rspReady = true ∧ t = s.takeResponse r) ∨ (s.pins.rspReady = false ∧ t = s))))) := by
  cases r : s.pins.rst with
  | true => rw [transition_rst r] at h; injection h with h; exact .inl ⟨rfl, h.symm⟩
  | false =>
    refine .inr ⟨rfl, ?_⟩
    match p : s.phase with
    | .idle =>
      cases c : s.cmdPort with
      | none => rw [transition_idle_none r p c] at h; injection h with h; simp [h.symm]
      | some w =>
        rw [transition_idle_some r p c] at h
        cases d : decode w with
        | error e => rw [accept_error d] at h; injection h with h; simp [h.symm, d]
        | ok i =>
          cases g : s.grain with
          | command => rw [accept_command (s := s.popCommand) d g] at h; simp [d, h]
          | transition => rw [accept_transition (s := s.popCommand) d g] at h; injection h with h; simp [d, h.symm]
    | .busy (.simple i) => rw [transition_simple r p] at h; simp [h]
    | .busy (.adv c) => rw [transition_adv r p] at h; injection h with h; simp [h.symm]
    | .busy (.bound w x) => rw [transition_bound r p] at h; injection h with h; simp [h.symm]
    | .resp x =>
      cases y : s.pins.rspReady with
      | true => rw [transition_taken r p y] at h; injection h with h; simp [h.symm]
      | false => rw [transition_held r p y] at h; injection h with h; simp [h.symm]

/-- A step is a transition and the host's turn. -/
theorem step_of_transition {t : State} (h : s.transition = .next t) : step s = .next t.hostTurn := by
  simp [step, h]

/-- A step that answers was a transition that answered. -/
theorem step_next_iff {t : State} : step s = .next t ↔ ∃ u, s.transition = .next u ∧ t = u.hostTurn := by
  constructor
  · intro h
    cases e : s.transition with
    | next u =>
      rw [step_of_transition e] at h
      injection h with h
      exact ⟨u, rfl, h.symm⟩
    | fault r => simp [step, e] at h
    | refused r => simp [step, e] at h
  · rintro ⟨u, e, rfl⟩
    exact step_of_transition e

/-- With an empty plan of the host a step is the transition. -/
theorem step_of_transition_nil {t : State} (h : s.transition = .next t) (p : t.schedule = []) : step s = .next t := by
  rw [step_of_transition h, State.hostTurn_nil _ p]

/-- A move that issues nothing leaves an empty list empty. -/
theorem HostMove.commands_of_not_issues {m : HostMove} (h : m.issues = false) : m.commands.getD [] = [] := by
  simpa [HostMove.issues] using h

/-- In an ended run without a reset the block waits: a step is the host's turn. -/
theorem State.RunEnded.transition (h : s.RunEnded) (r : s.pins.rst = false) : s.transition = .next s :=
  State.transition_idle_none r h.idle (by simp [State.cmdPort, h.noneWaiting])

/-- The host's turn keeps an ended run ended. -/
theorem State.RunEnded.hostTurn (h : s.RunEnded) : s.hostTurn.RunEnded := by
  cases p : s.schedule with
  | nil => rw [State.hostTurn_nil s p]; exact h
  | cons m rest =>
    have e : s.hostTurn = { s with pins := m.pins, commands := m.commands.getD s.commands, schedule := rest } := by
      simp [State.hostTurn, p]
    have later : ∀ k ∈ m :: rest, k.issues = false := p ▸ h.noneToCome
    rw [e]
    refine ⟨h.idle, ?_, fun k hk => later k (List.mem_cons_of_mem m hk)⟩
    rw [h.noneWaiting]
    exact HostMove.commands_of_not_issues (later m List.mem_cons_self)

/-- The host's turn keeps the absence of resets. -/
theorem State.NoReset.hostTurn (h : s.NoReset) : s.hostTurn.NoReset := by
  unfold State.hostTurn
  split
  · exact h
  · next m rest p =>
    have later := p ▸ h.2
    exact ⟨later m List.mem_cons_self, fun k hk => later k (List.mem_cons_of_mem m hk)⟩

/-- One step of a run, then the rest. -/
theorem run_succ_of_step {t : State} (n : Nat) (h : step s = .next t) :
    Sys2Proof.core.run (n + 1) s = Sys2Proof.core.run n t := by
  have h' : Sys2Proof.core.step s = .next t := h
  simp only [Host.Core.run, h']

/-- A run of no steps. -/
theorem run_zero : Sys2Proof.core.run 0 s = .next s := rfl

/-- A run cut in two. -/
theorem run_add {t : State} (m n : Nat) (h : Sys2Proof.core.run m s = .next t) :
    Sys2Proof.core.run (m + n) s = Sys2Proof.core.run n t := by
  induction m generalizing s with
  | zero =>
    rw [run_zero] at h
    injection h with h
    rw [h, Nat.zero_add]
  | succ m ih =>
    rw [Nat.add_right_comm]
    cases e : step s with
    | next u => rw [run_succ_of_step _ e] at h ⊢; exact ih h
    | fault r => have e' : Sys2Proof.core.step s = .fault r := e; simp [Host.Core.run, e'] at h
    | refused r => have e' : Sys2Proof.core.step s = .refused r := e; simp [Host.Core.run, e'] at h

end Sys2Proof.Machine
end

