-- ==== Sys2Proof/Laws/Steps.lean ====
section
/-! SUPPORT. `Step()` on words and its iteration: the lemmas that later proofs about draws and jumps cite. -/

namespace Sys2Proof.Machine

/-- `Step()` as R100 writes it. -/
theorem lcg_eq (inc x : Word64) : lcg inc x = mult * x + (inc ||| 1) := rfl

@[simp] theorem stepsOn_zero (inc x : Word64) : stepsOn inc 0 x = x := rfl

@[simp] theorem stepsOn_one (inc x : Word64) : stepsOn inc 1 x = lcg inc x := rfl

/-- One step first. -/
theorem stepsOn_succ (inc : Word64) (n : Nat) (x : Word64) : stepsOn inc (n + 1) x = stepsOn inc n (lcg inc x) :=
  Function.iterate_succ_apply _ _ _

/-- One step last. -/
theorem stepsOn_succ' (inc : Word64) (n : Nat) (x : Word64) : stepsOn inc (n + 1) x = lcg inc (stepsOn inc n x) :=
  Function.iterate_succ_apply' _ _ _

/-- `m` steps and then `n`. -/
theorem stepsOn_add (inc : Word64) (m n : Nat) (x : Word64) :
    stepsOn inc (m + n) x = stepsOn inc n (stepsOn inc m x) := by
  unfold stepsOn
  rw [Nat.add_comm, Function.iterate_add_apply]

end Sys2Proof.Machine
end

