-- ==== Sys2Proof/Tests/Slice0.lean ====
section
/-! SUPPORT. Tests. Every expected value is copied from the specification: spec/30_encoding.md R76 (words), the command rules'
examples, and spec/95_test_vectors.md (its section is named at each group). None is the model's own answer. -/

namespace Sys2Proof.Tests

open Sys2Proof.Machine

/-! ## Ill-formed terms the checks refuse (R63, R73, R74) -/

theorem test_wf_wrong_operand_count :
    AsmLine.wellFormed { mnemonic := .LOAD, operands := [1] } = false ∧
    AsmLine.wellFormed { mnemonic := .STEP, operands := [1] } = false ∧
    AsmLine.wellFormed { mnemonic := .BOUND, operands := [] } = false := by decide

theorem test_wf_operand_outside_64_bits :
    AsmLine.wellFormed { mnemonic := .ADV, operands := [2 ^ 64] } = false ∧
    AsmLine.wellFormed { mnemonic := .SEEDS, operands := [0, -(2 ^ 63) - 1] } = false ∧
    AsmLine.wellFormed { mnemonic := .ADV, operands := [-(2 ^ 63)] } = true ∧
    AsmLine.wellFormed { mnemonic := .ADV, operands := [2 ^ 64 - 1] } = true := by decide

theorem test_wf_operand_outside_32_bits :
    AsmLine.wellFormed { mnemonic := .BOUND, operands := [2 ^ 32] } = false ∧
    AsmLine.wellFormed { mnemonic := .BOUND, operands := [-1] } = false ∧
    AsmLine.wellFormed { mnemonic := .BOUND, operands := [2 ^ 32 - 1] } = true := by decide

/-- A word with ignored bits set is legal but not canonical; a reserved opcode has no canonical spelling. -/
theorem test_wf_word_not_canonical :
    isCanonical 0x05DEADBEEFDEADBEEFDEADBEEFDEADBEEF = false ∧
    isCanonical 0x08FFFFFFFF000000060123456789ABCDEF = false ∧
    isCanonical 0x0B00000000000000000000000000000000 = false ∧
    isCanonical 0x0800000000000000060000000000000000 = true := by decide

/-! ## Decoding: words written out from R60 and R66 (R76's table; section 2.7) -/

theorem test_decode_load :
    decode 0x010DDC0FFEEBADF00D00000000CAFEBABE = .ok (.load 0x0DDC0FFEEBADF00D 0xCAFEBABE) := by decide
theorem test_decode_seeds : decode 0x02000000000000002A0000000000000036 = .ok (.seeds 42 54) := by decide
theorem test_decode_seed : decode 0x03000000000000002A0000000000001234 = .ok (.seed 42) := by decide
theorem test_decode_step : decode 0x0400000000000000000000000000000000 = .ok .step := by decide
theorem test_decode_next : decode 0x05DEADBEEFDEADBEEFDEADBEEFDEADBEEF = .ok .next := by decide
theorem test_decode_int63 : decode 0x0600000000000000000000000000000000 = .ok .int63 := by decide
theorem test_decode_adv : decode 0x07FFFFFFFFFFFFFFFA0000000000000000 = .ok (.adv 0xFFFFFFFFFFFFFFFA) := by decide
theorem test_decode_bound : decode 0x08FFFFFFFF000000060123456789ABCDEF = .ok (.bound 6) := by decide
theorem test_decode_rdstate : decode 0x0900000000000000000000000000000000 = .ok .rdstate := by decide
theorem test_decode_rdinc : decode 0x0A00000000000000000000000000000000 = .ok .rdinc := by decide

theorem test_decode_reserved :
    decode 0x0000000000000000000000000000000000 = .error (.illegalCmd 0x00) ∧
    decode 0x0B00000000000000000000000000000000 = .error (.illegalCmd 0x0B) ∧
    decode 0xFFFFFFFFFFFFFFFFFFFFFFFFFFFFFFFFFF = .error (.illegalCmd 0xFF) := by decide

theorem test_encode_canonical :
    encode (.load 0x0DDC0FFEEBADF00D 0xCAFEBABE) = 0x010DDC0FFEEBADF00D00000000CAFEBABE ∧
    encode (.seed 42) = 0x03000000000000002A0000000000000000 ∧
    encode (.bound 6) = 0x0800000000000000060000000000000000 := by decide

theorem test_decode_table_word :
    decodeTableWord 136 0x0400000000000000000000000000000000 = some .step ∧
    decodeTableWord 136 0x0800000001000000000000000000000000 = some (.bound 0) ∧
    decodeTableWord 136 0 = none := by decide

/-! ## One step of the machine on a small state -/

/-- An idle block with these registers, its host ready. -/
def gen (state inc : Word64) : State := { State.reset with state := state, inc := inc }

/-- The registers and the word on the response port after the step that accepts a command word. -/
def answer (s : State) (w : CmdWord) : Option (Word64 × Word64 × Option RspWord) :=
  match step (s.presentNext w) with
  | .next t => some (t.state, t.inc, t.rspPort)
  | .fault _ => none
  | .refused _ => none

/-- The start state of the reference vector, after `SEEDS 42, 54` (section 1.1). -/
def reference : State := gen 0x185706B82C2E03F8 0x6D

/-- R90's example; section 2.1. -/
theorem test_load :
    answer (gen 7 9) 0x010DDC0FFEEBADF00D00000000CAFEBABE =
      some (0x0DDC0FFEEBADF00D, 0xCAFEBABE, some 0x000000000000000000) := by decide

/-- R91's example and its corner case (d); section 2.1. -/
theorem test_seeds_reference :
    answer (gen 7 9) 0x02000000000000002A0000000000000036 =
      some (0x185706B82C2E03F8, 0x6D, some 0x000000000000000000) := by decide

theorem test_seeds_wraps :
    answer (gen 7 9) 0x02FFFFFFFFFFFFFFFFFFFFFFFFFFFFFFFF =
      some (0x4F5C17A566D501A5, 0xFFFFFFFFFFFFFFFF, some 0x000000000000000000) := by decide

/-- R92's example with the ignored field set, and its wrap; section 2.1. -/
theorem test_seed_ignores_b :
    answer (gen 7 9) 0x03000000000000002A0000000000001234 =
      some (0xD5C4039BDD1C5C90, 1, some 0x000000000000000000) := by decide

theorem test_seed_wraps :
    answer (gen 7 9) 0x03FFFFFFFFFFFFFFFF0000000000000000 = some (1, 1, some 0x000000000000000000) := by decide

/-- R101's corner cases; section 2.2. -/
theorem test_step_wraps :
    answer (gen 0xFFFFFFFFFFFFFFFF 0xFFFFFFFFFFFFFFFF) 0x0400000000000000000000000000000000 =
      some (0xA7AE0BD2B36A80D2, 0xFFFFFFFFFFFFFFFF, some 0x000000000000000000) := by decide

theorem test_step_even_inc :
    answer (gen 0x8000000000000000 2) 0x0400000000000000000000000000000000 =
      some (0x8000000000000003, 2, some 0x000000000000000000) := by decide

/-- The source's first reference output; the raw pair of section 1.2. -/
theorem test_next_reference :
    answer reference 0x0500000000000000000000000000000000 =
      some (0x2B47FED88766BB05, 0x6D, some 0x0000000000A15C02B7) := by decide

theorem test_next_even_inc :
    answer (gen 0x0DDC0FFEEBADF00D 0xCAFEBABE) 0x0500000000000000000000000000000000 =
      some (0x3B71AC8516396008, 0xCAFEBABE, some 0x0000000000DDC0C89E) := by decide

/-- R110 and R112 on their own; section 2.3: `rot` 0, 1, 16, 31. -/
theorem test_xshRr :
    xshRr 0x0000000007FFFFFF = 0x00000000 ∧ xshRr 0x0000400000000000 = 0x00080002 ∧
    xshRr 0x0800000008000000 = 0x80002000 ∧ xshRr 0x8000000000000000 = 0x00000004 ∧
    xshRr 0xFFFFFFFF00000000 = 0xFFF0003F ∧ xshRr 0xAAAAAAAAAAAAAAAA = 0x800002AA := by decide

theorem test_ror32 :
    ror32 0x80000001 0 = 0x80000001 ∧ ror32 0x80000001 1 = 0xC0000000 ∧ ror32 0x80000001 2 = 0x60000000 ∧
    ror32 0x80000001 16 = 0x00018000 ∧ ror32 0x80000001 31 = 0x00000003 := by decide

/-- R116's example and the second row of section 2.3. -/
theorem test_int63_reference :
    answer reference 0x0600000000000000000000000000000000 =
      some (0x8B33296D19BF5B4E, 0x6D, some 0x00215C02B77B47F409) := by decide

theorem test_int63_second :
    answer (gen 0x8B33296D19BF5B4E 0x6D) 0x0600000000000000000000000000000000 =
      some (0xEBBF9E97AA16F694, 0x6D, some 0x003A1D333083D2F293) := by decide

/-- R130's example; section 2.4, the second a jump back of 64 iterations. -/
theorem test_adv_five :
    answer reference 0x0700000000000000050000000000000000 =
      some (0x8303569FBE80C471, 0x6D, some 0x000000000000000000) := by decide

theorem test_adv_back_six :
    answer reference 0x07FFFFFFFFFFFFFFFA0000000000000000 =
      some (0xA0C0511B15640A96, 0x6D, some 0x000000000000000000) := by decide +kernel

/-- The context after the second iteration of `ADV 5` (section 2.4's trace). -/
theorem test_adv_trace :
    advIterate (advIterate (advInit 5 0x6D)) =
      { delta := 1, accMult := 0x5851F42D4C957F2D, accPlus := 0x6D, curMult := 0xFB4D3AE39272BE11,
        curPlus := 0xBC79DBE95FA6A31C } := by decide

/-- R150's example; section 2.5. -/
theorem test_bound_six :
    answer reference 0x0800000000000000060000000000000000 =
      some (0x2B47FED88766BB05, 0x6D, some 0x000000000000000003) := by decide

/-- `A = 2^32` has `W = 0`: the error response and nothing else (R152, section 2.5). -/
theorem test_bound_zero :
    answer reference 0x0800000001000000000000000000000000 =
      some (0x185706B82C2E03F8, 0x6D, some 0x020000000000000000) := by decide

/-- The first draw after `LOAD 0, 1` is 0 and `BOUND 3` rejects it: no response yet (R159). -/
theorem test_bound_rejects :
    answer (gen 0 1) 0x0800000000000000030000000000000000 = some (1, 1, none) := by decide

/-- The third draw is accepted (R159). -/
theorem test_bound_accepts_after_rejections :
    (gen 0x5851F42D4C957F2E 1).boundDraw 3 1 =
      { gen 0xC0B18CCF4E252D17 1 with phase := .resp { status := .ok, data := 1 } } := by decide

theorem test_threshold :
    boundThreshold 10 = 6 ∧ boundThreshold 0x34 = 0x30 ∧ boundThreshold 0xC0000000 = 0x40000000 ∧
    boundThreshold 0x80000001 = 0x7FFFFFFF ∧ boundThreshold 1 = 0 := by decide

/-- Section 2.6. -/
theorem test_rdstate :
    answer reference 0x0900000000000000000000000000000000 =
      some (0x185706B82C2E03F8, 0x6D, some 0x00185706B82C2E03F8) := by decide

theorem test_rdinc_even :
    answer (gen 0x0DDC0FFEEBADF00D 0xCAFEBABE) 0x0A00000000000000000000000000000000 =
      some (0x0DDC0FFEEBADF00D, 0xCAFEBABE, some 0x0000000000CAFEBABE) := by decide

/-- Section 2.7; the word of program P4's line 5. -/
theorem test_illegal :
    answer reference 0x2A00000000000000000000000000000000 =
      some (0x185706B82C2E03F8, 0x6D, some 0x010000000000000000) := by decide

/-- The phase, the responses taken and the number of resets after a step. -/
def seen (s : State) : Option (Phase × List Response × Nat) :=
  match step s with
  | .next t => some (t.phase, t.taken, t.resets)
  | .fault _ => none
  | .refused _ => none

/-- The reference block with a response waiting. -/
def waiting : State := { reference with phase := .resp { status := .ok, data := 5 } }

/-- The response is taken and the block is idle (R44). -/
theorem test_response_taken : seen waiting = some (.idle, [{ status := .ok, data := 5 }], 1) := by decide

/-- Reset withdraws the response (R201). -/
theorem test_reset_withdraws :
    seen { waiting with pins := { Pins.ready with rst := true } } = some (.idle, [], 2) := by decide

/-! ## The assembler and the disassembler (R73 to R78) -/

theorem test_assemble :
    assembleText "LOAD 0x0ddc0ffeebadf00d, 0xcafebabe".toList = some 0x010DDC0FFEEBADF00D00000000CAFEBABE ∧
    assembleText "ADV -6".toList = some 0x07FFFFFFFFFFFFFFFA0000000000000000 ∧
    assembleText "SEEDS 42, 54".toList = some 0x02000000000000002A0000000000000036 ∧
    assembleText "RDINC ; the increment".toList = some 0x0A00000000000000000000000000000000 := by decide

theorem test_assemble_refuses :
    assembleText "BOUND 4294967296".toList = none ∧ assembleText "next".toList = none ∧
    assembleText "REWIND 6".toList = none ∧ assembleText "LOAD 1".toList = none := by decide

theorem test_disassemble :
    (disassemble 0x0800000000000000060000000000000000).text = "BOUND 0x00000006".toList ∧
    (disassemble 0x05DEADBEEFDEADBEEFDEADBEEFDEADBEEF).text =
      "NEXT ; 0x05DEADBEEFDEADBEEFDEADBEEFDEADBEEF".toList ∧
    (disassemble 0x2A00000000000000000000000000000000).text =
      ".illegal 0x2A00000000000000000000000000000000".toList := by decide

/-! ## Witnesses: for every obligation with hypotheses, states and operands that meet them -/

/-- The reference block with one command presented, and the same block stepping one transition at a time. -/
def presented (w : CmdWord) (g : Grain) : State := { reference with commands := [w], grain := g }

/-- The reference block under reset. -/
def underReset : State := { waiting with pins := { Pins.ready with rst := true } }

/-- The reference block whose host will next withdraw its command. -/
def planned : State :=
  { presented 0x0400000000000000000000000000000000 .command with
    schedule := [{ pins := { Pins.ready with cmdValid := false }, commands := some [] }] }

theorem witness_StepRunsTheCommandAtThePort :
    (let s := presented 0x0500000000000000000000000000000000 .command
     s.pins.rst = false ∧ s.phase = .idle ∧ s.pins.cmdValid = true ∧
       s.commands = [0x0500000000000000000000000000000000] ∧ s.grain = .command ∧
       decode 0x0500000000000000000000000000000000 = .ok .next) ∧
    (decodeTableWord 136 0x0500000000000000000000000000000000 = some .next ∧ reference.schedule = [] ∧
      ∃ t, exec .next { reference with
        phase := .idle, pins := { reference.pins with rst := false, cmdValid := true }, grain := .command } = .next t) ∧
    planned.schedule = [{ pins := { Pins.ready with cmdValid := false }, commands := some [] }] :=
  ⟨by decide, ⟨by decide, rfl, _, rfl⟩, rfl⟩

/-- What the illegal words' statement asks of a block that is about to accept one. -/
def aboutToAccept (s : State) (w : CmdWord) : Bool :=
  s.pins.rst == false && s.phase == .idle && s.pins.cmdValid && s.commands == [w] && s.schedule == [] &&
    decide ((opField w).toNat = 0 ∨ 0x0B ≤ (opField w).toNat) && s.pins.rspReady

theorem witness_IllegalCommandIsAnsweredAndForgotten :
    (∃ t, exec .step reference = .next t) ∧
    aboutToAccept (presented 0x0000000000000000000000000000000000 .command) 0 = true ∧
    aboutToAccept (presented 0x0B00000000000000000000000000000000 .transition) 0x0B00000000000000000000000000000000 = true ∧
    aboutToAccept (presented 0xFF00000000000000000000000000000000 .command) 0xFF00000000000000000000000000000000 = true :=
  ⟨⟨_, rfl⟩, by decide, by decide, by decide⟩

theorem witness_ZeroBoundIsAnInvalidArgument :
    ∃ t, exec (.bound 0) reference = .next t ∧ t.phase = .resp { status := .errInvalidArg, data := 0 } :=
  ⟨_, rfl, rfl⟩

theorem witness_ResetOverridesEverything : underReset.pins.rst = true ∧ underReset.schedule = [] := by decide

theorem witness_ACommandWaitsUntilTheBlockIsIdle :
    (waiting.cmdReady = false ∧ waiting.schedule = []) ∧
    (let s := { planned with phase := .resp { status := .ok, data := 5 } }
     s.cmdReady = false ∧ s.schedule = [{ pins := { Pins.ready with cmdValid := false }, commands := some [] }]) ∧
    (let s := presented 0x0500000000000000000000000000000000 .command
     s.cmdReady = true ∧ s.cmdPort = some 0x0500000000000000000000000000000000 ∧ s.schedule = []) ∧
    (reference.cmdReady = true ∧ reference.cmdPort = none ∧ reference.schedule = []) := by decide

theorem witness_AResponseWaitsUntilItIsTaken :
    (waiting.pins.rst = false ∧ waiting.phase = .resp { status := .ok, data := 5 } ∧ waiting.schedule = [] ∧
      waiting.pins.rspReady = true) ∧
    (let s := { waiting with pins := { Pins.ready with rspReady := false } }
     s.pins.rst = false ∧ s.phase = .resp { status := .ok, data := 5 } ∧ s.schedule = [] ∧ s.pins.rspReady = false) := by
  decide

theorem witness_EveryAcceptedCommandGetsOneResponse :
    (waiting.pins.rst = false ∧ waiting.schedule = []) ∧ (underReset.pins.rst = true ∧ underReset.schedule = []) := by
  decide

theorem witness_TransitionsReachWhatExecAnswers :
    let s := presented 0x07FFFFFFFFFFFFFFFF0000000000000000 .transition
    s.pins.rst = false ∧ s.phase = .idle ∧ s.pins.cmdValid = true ∧
      s.commands = [0x07FFFFFFFFFFFFFFFF0000000000000000] ∧ s.schedule = [] ∧ s.grain = .transition ∧
      decode 0x07FFFFFFFFFFFFFFFF0000000000000000 = .ok (.adv 0xFFFFFFFFFFFFFFFF) := by decide

theorem witness_EveryStepKeepsTheInvariant : waiting.Inv ∧ ∃ t, step waiting = .next t :=
  ⟨⟨fun h => absurd rfl h, nofun⟩, _, rfl⟩

theorem witness_AFinishedRunAnswersEveryCommandInOrder :
    let s := presented 0x0500000000000000000000000000000000 .command
    s.Launch ∧ ∃ t, Sys2Proof.core.run 2 s = .next t ∧ t.RunEnded ∧ t.taken.length = 1 :=
  ⟨⟨rfl, rfl, rfl⟩, _, rfl, ⟨rfl, rfl, nofun⟩, rfl⟩

/-- The reference block with nothing presented and one later move of the host. -/
def later (cmds : Option (List CmdWord)) : State :=
  { reference with schedule := [{ pins := Pins.ready, commands := cmds }] }

/-- A host that will still issue a command has not ended its run (R15: the last command's response). -/
theorem test_run_not_ended_before_a_later_command :
    ¬ (later (some [0x0500000000000000000000000000000000])).RunEnded := fun h =>
  absurd (h.noneToCome _ List.mem_cons_self) (by decide)

/-- A run that has ended and a host that still moves, once leaving its list and once emptying it. -/
theorem witness_AnEndedRunStaysEnded :
    ∀ c ∈ ([none, some []] : List (Option (List CmdWord))),
      (later c).RunEnded ∧ (later c).NoReset ∧ ∃ t, Sys2Proof.core.run 3 (later c) = .next t := by
  intro c hc
  rcases List.mem_cons.1 hc with rfl | hc
  · exact ⟨⟨rfl, rfl, by decide⟩, by unfold State.NoReset; decide, _, rfl⟩
  · rcases List.mem_singleton.1 hc with rfl
    exact ⟨⟨rfl, rfl, by decide⟩, by unfold State.NoReset; decide, _, rfl⟩

theorem witness_EveryRunEnds :
    (presented 0x0500000000000000000000000000000000 .command).Launch ∧
    (presented 0x0500000000000000000000000000000000 .transition).Launch := ⟨⟨rfl, rfl, rfl⟩, ⟨rfl, rfl, rfl⟩⟩

theorem witness_SequenceValuesSelectStreamsByTheirLow63Bits :
    (∃ t t', exec (.seeds 42 54) reference = .next t ∧ exec (.seeds 42 0x8000000000000036) waiting = .next t') ∧
    (0x6D : Word64).getLsbD 0 = true := ⟨⟨_, _, rfl, rfl⟩, by decide⟩

theorem witness_IncIsWrittenByThreeCommandsOnly : Instr.writesInc .step = false ∧ Instr.writesInc .rdinc = false := by
  decide

theorem witness_AStepChangesIncOnlyByResetOrSeeding :
    ∃ t, step (presented 0x010DDC0FFEEBADF00D00000000CAFEBABE .command) = .next t ∧
      t.inc ≠ (presented 0x010DDC0FFEEBADF00D00000000CAFEBABE .command).inc := ⟨_, rfl, by decide⟩

theorem witness_SeedingForgetsThePast :
    (let s := presented 0x02000000000000002A0000000000000036 .command
     s.pins.rst = false ∧ s.phase = .idle ∧ s.pins.cmdValid = true ∧ s.SeedsFirst ∧ s.grain = .command) ∧
    (let s := presented 0x02000000000000002A0000000000000036 .transition
     s.pins.rst = false ∧ s.phase = .idle ∧ s.pins.cmdValid = true ∧ s.SeedsFirst ∧ s.grain = .transition ∧
       s.schedule = []) :=
  ⟨⟨rfl, rfl, rfl, ⟨_, [], .seeds 42 54, rfl, by decide, rfl⟩, rfl⟩,
    ⟨rfl, rfl, rfl, ⟨_, [], .seeds 42 54, rfl, by decide, rfl⟩, rfl, rfl⟩⟩

theorem witness_EvenAndOddIncrementsDifferOnlyInReadback :
    (gen 7 2).SameUpToIncBit (gen 7 3) ∧ Instr.next ≠ .rdinc :=
  ⟨⟨rfl, by decide, .inl rfl, .nil, rfl, rfl, rfl, rfl, rfl⟩, by decide⟩

theorem witness_RotateRightMovesBitJPlusRToJ :
    ((0 : Word32).toNat < 32 ∧ (0 : Nat) < 32) ∧ ((31 : Word32).toNat < 32 ∧ (31 : Nat) < 32) := by decide

theorem witness_XshRrBitByBit : (0 : Nat) < 32 ∧ (18 : Nat) < 32 ∧ (19 : Nat) < 32 ∧ (31 : Nat) < 32 := by decide

theorem witness_Int63JoinsTwoDrawsEarlierHigh : (30 : Nat) < 31 ∧ (31 : Nat) < 32 := by decide

theorem witness_AdvStartsFromTheIdentityAndOneStep :
    let s := presented 0x0700000000000000050000000000000000 .transition
    s.pins.rst = false ∧ s.phase = .idle ∧ s.pins.cmdValid = true ∧
      s.commands = [0x0700000000000000050000000000000000] ∧ s.schedule = [] ∧ s.grain = .transition ∧
      decode 0x0700000000000000050000000000000000 = .ok (.adv 5) := by decide

/-- The reference block in an `ADV` with this much of its distance left. -/
def advancing (d : Word64) : State := { reference with phase := .busy (.adv { advInit 5 0x6D with delta := d }) }

theorem witness_AdvTransitionIsOneIterationOrTheEnd :
    ((advancing 5).pins.rst = false ∧ (advancing 5).phase = .busy (.adv { advInit 5 0x6D with delta := 5 }) ∧
      (advancing 5).schedule = [] ∧ (5 : Word64) ≠ 0 ∧ (5 : Word64).getLsbD 0 = true) ∧
    ((advancing 2).pins.rst = false ∧ (advancing 2).phase = .busy (.adv { advInit 5 0x6D with delta := 2 }) ∧
      (advancing 2).schedule = [] ∧ (2 : Word64) ≠ 0 ∧ (2 : Word64).getLsbD 0 = false) ∧
    ((advancing 0).pins.rst = false ∧ (advancing 0).phase = .busy (.adv { advInit 5 0x6D with delta := 0 }) ∧
      (advancing 0).schedule = []) := by decide

theorem witness_AdvIterationsAreTheBitLength : (0x8000000000000000 : Word64).getLsbD 63 = true := by decide

theorem witness_AdvLoopInvariantInClosedForm :
    0 ≤ Nat.size (5 : Word64).toNat ∧ 3 ≤ Nat.size (5 : Word64).toNat := by decide

theorem witness_StepsAndAdvAgree : 0 < 2 ^ 64 ∧ (1 ≤ 1 ∧ 1 < 2 ^ 64) ∧ (1 ≤ 2 ^ 64 - 1 ∧ 2 ^ 64 - 1 < 2 ^ 64) := by
  omega

theorem witness_JumpsComposeAndRewind : 0 < 2 ^ 64 ∧ 2 ^ 64 - 1 < 2 ^ 64 := by omega

theorem witness_AdvCornerCases : (0x6D : Word64).getLsbD 0 = true := by decide

theorem witness_ThresholdIsTheUnfairTail : (1 : Word32) ≠ 0 ∧ (0xFFFFFFFF : Word32) ≠ 0 := by decide

/-- Every clause at the threshold 1 of `BOUND 3`: the draw 0 is rejected, the draw 1 accepted. -/
theorem witness_BoundAcceptsOrRejectsADraw :
    ((3 : Word32) ≠ 0 ∧ (xshRr (gen 0 1).state).toNat < 2 ^ 32 % (3 : Word32).toNat) ∧
    ((3 : Word32) ≠ 0 ∧ 2 ^ 32 % (3 : Word32).toNat ≤ (xshRr (gen 0x0000000008000000 1).state).toNat) ∧
    (let s := { gen 0x0000000008000000 1 with phase := .busy (.bound 3 1) }
     s.pins.rst = false ∧ s.phase = .busy (.bound 3 1) ∧ s.schedule = [] ∧ (1 : Word32).toNat ≤ (xshRr s.state).toNat) ∧
    (let s := { gen 0 1 with phase := .busy (.bound 3 1) }
     s.pins.rst = false ∧ s.phase = .busy (.bound 3 1) ∧ s.schedule = [] ∧ (xshRr s.state).toNat < (1 : Word32).toNat) := by
  decide

/-- `LOAD 0, 1`, `BOUND 3`: two rejected draws, then one accepted (R159). -/
theorem witness_BoundConsumesTheRejectedDrawsAndOne :
    (3 : Word32) ≠ 0 ∧ (gen 0 1).pins.rst = false ∧ (gen 0 1).schedule = [] ∧
    (∀ j < 2, (xshRr (stepsOn (gen 0 1).inc j (gen 0 1).state)).toNat < 2 ^ 32 % (3 : Word32).toNat) ∧
    2 ^ 32 % (3 : Word32).toNat ≤ (xshRr (stepsOn (gen 0 1).inc 2 (gen 0 1).state)).toNat := by decide

theorem witness_EveryBoundEnds :
    (0x80000001 : Word32) ≠ 0 ∧ reference.pins.rst = false ∧ reference.schedule = [] := by decide

theorem witness_SamplesAreBelowTheBound :
    (∃ t, exec (.bound 6) reference = .next t ∧ t.phase = .resp { status := .ok, data := 3 }) ∧
    (let s := { gen 0x5851F42D4C957F2E 1 with phase := .busy (.bound 3 1) }
     s.pins.rst = false ∧ s.phase = .busy (.bound 3 1) ∧
       ∃ t, step s = .next t ∧ t.phase = .resp { status := .ok, data := 1 }) :=
  ⟨⟨_, rfl, by decide⟩, rfl, rfl, _, rfl, by decide⟩

theorem witness_AcceptedDrawsGiveEachResidueEquallyOften :
    (6 : Word32) ≠ 0 ∧ (0 : Word32).toNat < (6 : Word32).toNat ∧ (5 : Word32).toNat < (6 : Word32).toNat := by decide

theorem witness_BoundCornerCases : (1 ≤ 1 ∧ 1 ≤ 31) ∧ (1 ≤ 31 ∧ 31 ≤ 31) ∧ xshRr reference.state ≠ 0 := by decide

theorem witness_IdempotentCommands :
    Instr.writesInc (.load 1 2) = true ∧ Instr.writesInc (.seeds 1 2) = true ∧ Instr.writesInc (.seed 1) = true := by decide

theorem witness_Frames :
    (∃ i : Instr, i = .step ∨ i = .next ∨ i = .int63 ∨ (∃ a, i = .adv a) ∨ (∃ w, i = .bound w)) ∧
    (∃ i : Instr, (∃ a b, i = .load a b) ∨ (∃ a b, i = .seeds a b) ∨ (∃ a, i = .seed a)) ∧
    (∃ i : Instr, i = .rdstate ∨ i = .rdinc ∨ i = .bound 0) :=
  ⟨⟨.step, .inl rfl⟩, ⟨.load 1 2, .inl ⟨1, 2, rfl⟩⟩, ⟨.rdstate, .inl rfl⟩⟩

theorem witness_DecodeFollowsTheOpcodeMap :
    ({ mnemonic := .RDINC, pattern := 0x0A00000000000000000000000000000000, mask := opMask } : OpRow) ∈ opcodeTable := by
  decide

theorem witness_DecodeReadsExactlyTheUsedBits :
    decode 0x08FFFFFFFF000000060123456789ABCDEF = .ok (.bound 6) ∧
    decode 0x0800000000000000060000000000000000 = .ok (.bound 6) := by decide

theorem witness_ResponseWordCarriesStatusAndData :
    Response.ofWord 0x00215C02B77B47F409 = some { status := .ok, data := 0x215C02B77B47F409 } ∧
    0x03 ≤ ((0x030000000000000000 : RspWord).extractLsb' 64 8).toNat := by decide

theorem witness_DataFieldOfEveryResponse :
    (∃ t r, exec (.bound 0) reference = .next t ∧ t.phase = .resp r ∧ r.status ≠ .ok) ∧
    (∃ t r, exec .int63 reference = .next t ∧ t.phase = .resp r ∧ r.status = .ok) :=
  ⟨⟨_, _, rfl, rfl, by decide⟩, ⟨_, _, rfl, rfl, rfl⟩⟩

theorem witness_AssemblerTakesExactlyTheWellFormedLines :
    AsmLine.wellFormed { mnemonic := .ADV, operands := [-6] } = true ∧
    AsmLine.wellFormed { mnemonic := .ADV, operands := [] } = false ∧
    (1 ≤ 1 ∧ 1 ≤ 2 ^ 63) ∧ (1 ≤ 2 ^ 63 ∧ 2 ^ 63 ≤ 2 ^ 63) := ⟨by decide, by decide, by omega, by omega⟩

theorem witness_DisassemblyNamesTheCommandAndTheIgnoredBits :
    decode 0x05DEADBEEFDEADBEEFDEADBEEFDEADBEEF = .ok .next ∧
    decode 0x2A00000000000000000000000000000000 = .error (.illegalCmd 0x2A) := by decide

end Sys2Proof.Tests
end

/-! # Runs: an ended run stays ended, a finished run has answered its commands (R15, R16, R46) -/

section
/-! SUPPORT. The induction over the steps of a run, made once. -/

namespace Sys2Proof.Machine

/-- A run of at least one step is a step and a run. -/
theorem run_succ_eq_next {s t : State} {n : Nat} (h : Sys2Proof.core.run (n + 1) s = .next t) :
    ∃ u, step s = .next u ∧ Sys2Proof.core.run n u = .next t := by
  cases e : step s with
  | next u => exact ⟨u, rfl, run_succ_of_step n e ▸ h⟩
  | fault r => exact nomatch r
  | refused r =>
    have e' : Sys2Proof.core.step s = .refused r := e
    simp [Host.Core.run, e'] at h

/-- What every step keeps, every run keeps. -/
theorem run_keeps {P : State → Prop} (keeps : ∀ s t, P s → step s = .next t → P t) {s t : State} {n : Nat}
    (hs : P s) (h : Sys2Proof.core.run n s = .next t) : P t := by
  induction n generalizing s with
  | zero =>
    rw [run_zero] at h
    injection h with h
    exact h ▸ hs
  | succ n ih =>
    obtain ⟨u, hu, hr⟩ := run_succ_eq_next h
    exact ih (keeps s u hs hu) hr

end Sys2Proof.Machine
end

section
/-! PROOF of O60. -/

namespace Sys2Proof.Machine

/-- The host's turn writes no register. -/
@[simp] theorem State.hostTurn_regs (s : State) : s.hostTurn.regs = s.regs := by
  simp [State.regs]

/-- An ended run that no reset can disturb, with these responses taken and these registers left. -/
structure State.EndedWith (rs : List Response) (g : Regs) (s : State) : Prop where
  ended : s.RunEnded
  noReset : s.NoReset
  taken : s.taken = rs
  regs : s.regs = g

/-- In an ended run only the host still moves. -/
theorem State.EndedWith.step {rs : List Response} {g : Regs} (s t : State) (h : s.EndedWith rs g)
    (e : Machine.step s = .next t) : t.EndedWith rs g := by
  rw [step_of_transition (h.ended.transition h.noReset.1)] at e
  injection e with e
  subst e
  exact ⟨h.ended.hostTurn, h.noReset.hostTurn, by simp [h.taken], by simp [h.regs]⟩

/-- Settles O60: a step of an ended run is the host's turn, which writes nothing observed; by induction on the steps. -/
theorem anEndedRunStaysEnded : Obligations.AnEndedRunStaysEnded := by
  intro s t n ended noReset run
  obtain ⟨ended', -, taken, regs⟩ := run_keeps State.EndedWith.step ⟨ended, noReset, rfl, rfl⟩ run
  exact ⟨ended', taken, regs⟩

end Sys2Proof.Machine
end

section
/-! The closed forms of the rules, of the words a command computes: seeding (R91, R92), `INT63` (R116), the sample and the
threshold of `BOUND` (R151, R154). -/

namespace Sys2Proof.Machine

/-- The odd increment of a sequence value (R91). -/
theorem shl64_one_or_one (b : Word64) : shl64 b 1 ||| 1 = 2 * b + 1 := by
  have disjoint : shl64 b 1 &&& 1 = 0 := by
    apply BitVec.eq_of_toNat_eq
    rw [shl64, BitVec.toNat_and, BitVec.toNat_shiftLeft, Nat.shiftLeft_eq]
    show b.toNat * 2 ^ 1 % 2 ^ 64 &&& 1 = 0
    rw [Nat.and_one_is_mod]
    omega
  rw [← BitVec.add_eq_or_of_and_eq_zero _ _ disjoint, shl64, BitVec.shiftLeft_eq_mul_twoPow, mul_comm]
  rfl

/-- Seeding with an odd increment (R91): the five actions leave this state. -/
theorem State.prime_state (s : State) (a : Word64) {i : Word64} (odd : i ||| 1 = i) :
    (s.prime a i).state = mult * (i + a) + i := by
  have first : lcg i 0 = i := by rw [lcg_eq, odd, mul_zero, zero_add]
  calc (s.prime a i).state = lcg i (lcg i 0 + a) := rfl
    _ = mult * (i + a) + i := by rw [first, lcg_eq, odd]

/-- Two draws joined (R116): 31 bits of the earlier one above the later one. -/
theorem int63Data_eq (hi lo : Word32) :
    int63Data hi lo = BitVec.ofNat 64 (hi.toNat % 2 ^ 31 * 2 ^ 32 + lo.toNat) := by
  apply BitVec.eq_of_toNat_eq
  have hlo := lo.isLt
  have hhi := hi.isLt
  have join : hi.toNat <<< 32 ||| lo.toNat = hi.toNat * 2 ^ 32 + lo.toNat := by
    rw [← Nat.shiftLeft_add_eq_or_of_lt hlo, Nat.shiftLeft_eq]
  have fits : hi.toNat <<< 32 < 2 ^ 64 := by rw [Nat.shiftLeft_eq]; omega
  have mask : (0x7FFFFFFFFFFFFFFF : Word64).toNat = 2 ^ 63 - 1 := rfl
  rw [int63Data, shl64, zext64, zext64, BitVec.toNat_and, BitVec.toNat_or, BitVec.toNat_shiftLeft,
    BitVec.toNat_setWidth_of_le (by omega), BitVec.toNat_setWidth_of_le (by omega), Nat.mod_eq_of_lt fits, join, mask,
    Nat.and_two_pow_sub_one_eq_mod, BitVec.toNat_ofNat]
  omega

/-- The remainder R9 defines. -/
theorem umod32_pos {b : Word32} (a : Word32) (h : b ≠ 0) : (umod32 a b).toNat = a.toNat % b.toNat := by
  rw [umod32, if_neg h, BitVec.toNat_umod]

/-- The sample that an accepted draw answers (R154). -/
theorem zext64_umod32 {b : Word32} (a : Word32) (h : b ≠ 0) :
    zext64 (umod32 a b) = BitVec.ofNat 64 (a.toNat % b.toNat) := by
  rw [← umod32_pos a h, BitVec.ofNat_toNat, zext64]

/-- The threshold is what 2^32 leaves over (R151). -/
theorem boundThreshold_toNat {w : Word32} (h : w ≠ 0) : (boundThreshold w).toNat = 2 ^ 32 % w.toNat := by
  have pos : 0 < w.toNat := Nat.pos_of_ne_zero fun z => h (BitVec.eq_of_toNat_eq z)
  have small : (2 ^ 32 - w.toNat) % 2 ^ 32 = 2 ^ 32 - w.toNat := Nat.mod_eq_of_lt (by omega)
  rw [boundThreshold, umod32_pos _ h, neg32, BitVec.toNat_neg, small]
  exact (Nat.mod_eq_sub_mod w.isLt.le).symm

end Sys2Proof.Machine
end

section
/-! `ADV` in steps: what a context covers (R131, R132, R133, R135). -/

namespace Sys2Proof.Machine

/-- One `Step()` is the pair `(MULT, inc | 1)`. -/
theorem isSteps_one (inc : Word64) : IsSteps inc mult (inc ||| 1) 1 := fun _ => rfl

/-- No step is the identity pair. -/
theorem isSteps_zero (inc : Word64) : IsSteps inc 1 0 0 := fun x => by simp [mul64, add64]

/-- Pairs compose: `m` steps and then `n` (R132). -/
theorem IsSteps.comp {inc a p b q : Word64} {m n : Nat} (first : IsSteps inc a p m) (second : IsSteps inc b q n) :
    IsSteps inc (mul64 a b) (add64 (mul64 p b) q) (m + n) := by
  intro x
  rw [stepsOn_add, ← first x, ← second]
  simp only [add64, mul64]
  ring

/-- `ADV` by `n` steps, under way: the accumulator pair is the steps already counted, the current pair is a power of two of
them, and `delta` counts in that power the steps that are left (R135). -/
def AdvCtx.Covers (inc : Word64) (n : Nat) (c : AdvCtx) : Prop :=
  ∃ k m, c.delta.toNat * 2 ^ k + m = n ∧
    IsSteps inc c.accMult c.accPlus m ∧ IsSteps inc c.curMult c.curPlus (2 ^ k)

/-- The initial context covers the whole operand (R131). -/
theorem advInit_covers (inc a : Word64) : (advInit a (inc ||| 1)).Covers inc a.toNat :=
  ⟨0, 0, by simp [advInit], isSteps_zero inc, isSteps_one inc⟩

/-- Doubling halves `delta` (R132). -/
theorem advDouble_delta (c : AdvCtx) : (advDouble c).delta.toNat = c.delta.toNat / 2 := by
  rw [advDouble, shr64, BitVec.toNat_ushiftRight, Nat.shiftRight_one]

/-- An iteration halves `delta` (R132). -/
theorem advIterate_delta (c : AdvCtx) : (advIterate c).delta.toNat = c.delta.toNat / 2 := by
  unfold advIterate
  split <;> exact advDouble_delta _

/-- Doubling the current pair counts the steps left in pairs of it; an odd one out is no longer covered (R132, R135). -/
theorem advDouble_covers {inc : Word64} {k m : Nat} {c : AdvCtx} (acc : IsSteps inc c.accMult c.accPlus m)
    (cur : IsSteps inc c.curMult c.curPlus (2 ^ k)) :
    (advDouble c).Covers inc (c.delta.toNat / 2 * 2 ^ (k + 1) + m) := by
  have square : add64 (mul64 c.curPlus c.curMult) c.curPlus = mul64 (add64 c.curMult 1) c.curPlus := by
    simp only [add64, mul64]; ring
  have twice := cur.comp cur
  rw [square, ← Nat.two_mul, ← Nat.pow_succ'] at twice
  exact ⟨k + 1, m, by rw [advDouble_delta], acc, twice⟩

/-- An iteration covers the same number of steps: the odd one out goes to the accumulator pair (R132, R135). -/
theorem AdvCtx.Covers.advIterate {inc : Word64} {n : Nat} {c : AdvCtx} (h : c.Covers inc n) :
    (advIterate c).Covers inc n := by
  obtain ⟨k, m, count, acc, cur⟩ := h
  have bit : c.delta.getLsbD 0 = decide (c.delta.toNat % 2 = 1) := Nat.testBit_zero _
  unfold Machine.advIterate
  split
  case isTrue odd =>
    have split_delta : 2 * (c.delta.toNat / 2) + 1 = c.delta.toNat := by
      rw [bit, decide_eq_true_iff] at odd; omega
    have same : c.delta.toNat / 2 * 2 ^ (k + 1) + (m + 2 ^ k) = n :=
      calc _ = (2 * (c.delta.toNat / 2) + 1) * 2 ^ k + m := by ring
        _ = n := by rw [split_delta, count]
    exact same ▸ advDouble_covers (c := advAccumulate c) (acc.comp cur) cur
  case isFalse even =>
    have split_delta : 2 * (c.delta.toNat / 2) = c.delta.toNat := by
      rw [bit, decide_eq_true_iff] at even; omega
    have same : c.delta.toNat / 2 * 2 ^ (k + 1) + m = n :=
      calc _ = 2 * (c.delta.toNat / 2) * 2 ^ k + m := by ring
        _ = n := by rw [split_delta, count]
    exact same ▸ advDouble_covers acc cur

/-- The loop of `ADV` covers the same number of steps at its end (R133, R135). -/
theorem AdvCtx.Covers.advLoop {inc : Word64} {n : Nat} (fuel : Nat) {c : AdvCtx} (h : c.Covers inc n) :
    (advLoop fuel c).Covers inc n := by
  induction fuel generalizing c with
  | zero => exact h
  | succ fuel ih =>
    unfold Machine.advLoop
    split
    · exact h
    · exact ih h.advIterate

/-- Fuel for every bit of `delta` runs the loop to its end (R133). -/
theorem advLoop_delta {fuel : Nat} {c : AdvCtx} (h : c.delta.toNat < 2 ^ fuel) : (advLoop fuel c).delta = 0 := by
  induction fuel generalizing c with
  | zero => exact BitVec.eq_of_toNat_eq (Nat.lt_one_iff.1 h)
  | succ fuel ih =>
    unfold advLoop
    split
    case isTrue zero => exact zero
    case isFalse => exact ih (by rw [advIterate_delta]; omega)

/-- A context with nothing left has counted all the steps (R134). -/
theorem AdvCtx.Covers.isSteps {inc : Word64} {n : Nat} {c : AdvCtx} (h : c.Covers inc n) (done : c.delta = 0) :
    IsSteps inc c.accMult c.accPlus n := by
  obtain ⟨k, m, count, acc, -⟩ := h
  rw [done] at count
  exact (by simpa using count : m = n) ▸ acc

/-- `ADV A` is `A` steps (R136). -/
theorem advLoop_isSteps (inc a : Word64) :
    IsSteps inc (advLoop 64 (advInit a (inc ||| 1))).accMult (advLoop 64 (advInit a (inc ||| 1))).accPlus a.toNat :=
  ((advInit_covers inc a).advLoop 64).isSteps (advLoop_delta a.isLt)

end Sys2Proof.Machine
end

section
/-! The invariant of a run from a launch state: the commands served so far have been answered as `Answers` says, and the one in
the block is on its way to such an answer (R15, R46). -/

namespace Sys2Proof.Machine

/-- The first `k` draws of `BOUND v` from the registers `g` are all rejected (R153, R155). -/
def AllRejected (g : Regs) (v : Word32) (k : Nat) : Prop :=
  ∀ j < k, (xshRr (stepsOn g.inc j g.state)).toNat < 2 ^ 32 % v.toNat

/-- `p.Serves g w x`: in phase `p`, with the registers now `x`, the block is serving the word `w`, which it accepted with the
registers `g`; a presented response is the answer. -/
def Phase.Serves (g : Regs) (w : CmdWord) (x : Regs) : Phase → Prop
  | .idle => False
  | .busy (.simple i) => decode w = .ok i ∧ x = g
  | .busy (.adv c) => x = g ∧ ∃ a, decode w = .ok (.adv a) ∧ c.Covers g.inc a.toNat
  | .busy (.bound v t) => decode w = .ok (.bound v) ∧ v ≠ 0 ∧ t.toNat = 2 ^ 32 % v.toNat ∧
      ∃ k, x = { g with state := stepsOn g.inc k g.state } ∧ AllRejected g v k
  | .resp r => Answers g w r x

/-- The block is serving the word `w`, accepted with the registers `g`. -/
def State.Serves (g : Regs) (w : CmdWord) (s : State) : Prop := s.phase.Serves g w s.regs

/-- The end of `ADV` answers it (R134, R136). -/
theorem State.advFinish_serves {s : State} {w : CmdWord} {a : Word64} {c : AdvCtx} (h : decode w = .ok (.adv a))
    (steps : IsSteps s.inc c.accMult c.accPlus a.toNat) : (s.advFinish c).Serves s.regs w := by
  have regs : (s.advFinish c).regs = { s.regs with state := stepsOn s.inc a.toNat s.state } := by
    rw [← steps]; rfl
  show Answers s.regs w _ (s.advFinish c).regs
  exact regs ▸ .adv h

/-- A transition of `ADV` goes on serving it (R132, R134). -/
theorem State.advTransition_serves {s : State} {w : CmdWord} {a : Word64} {c : AdvCtx} (h : decode w = .ok (.adv a))
    (covers : c.Covers s.inc a.toNat) : (s.advTransition c).Serves s.regs w := by
  by_cases done : c.delta = 0
  · rw [advTransition_ends done]
    exact advFinish_serves h (covers.isSteps done)
  · rw [advTransition_iterates done]
    exact ⟨rfl, a, h, covers.advIterate⟩

/-- A draw of `BOUND`, the `k + 1`-th, goes on serving it or answers it (R153, R154, R155). -/
theorem State.boundDraw_serves {s : State} {g : Regs} {w : CmdWord} {v t : Word32} {k : Nat}
    (h : decode w = .ok (.bound v)) (pos : v ≠ 0) (threshold : t.toNat = 2 ^ 32 % v.toNat)
    (regs : s.regs = { g with state := stepsOn g.inc k g.state }) (rejected : AllRejected g v k) :
    (s.boundDraw v t).Serves g w := by
  have state : s.state = stepsOn g.inc k g.state := congrArg Regs.state regs
  have inc : s.inc = g.inc := congrArg Regs.inc regs
  have stepped : s.lcgStep.regs = { g with state := stepsOn g.inc (k + 1) g.state } := by
    rw [stepsOn_succ', ← state, ← inc]; rfl
  obtain ⟨accepts, draw⟩ | ⟨rejects, draw⟩ := s.boundDraw_cases v t
  · rw [draw, zext64_umod32 _ pos, state]
    rw [threshold, state] at accepts
    show Answers g w _ s.lcgStep.regs
    exact stepped ▸ .bound h pos k rejected accepts
  · rw [draw]
    rw [threshold, state] at rejects
    refine ⟨h, pos, threshold, k + 1, stepped, fun j hj => ?_⟩
    obtain before | rfl := Nat.lt_succ_iff_lt_or_eq.1 hj
    · exact rejected j before
    · exact rejects

/-- Setting bit 0 again changes nothing, so a seeded `inc` is its own `inc | 1` (R91). -/
theorem or_one_or_one (x : Word64) : x ||| 1 ||| 1 = x ||| 1 := by rw [BitVec.or_assoc, BitVec.or_self]

/-- `SEEDS` and `SEED` leave the registers of R91's net effect. -/
theorem State.prime_regs (s : State) (a : Word64) {i : Word64} (odd : i ||| 1 = i) :
    (s.prime a i).regs = { state := mult * (i + a) + i, inc := i } :=
  congrArg (Regs.mk · i) (s.prime_state a odd)

/-- A command run whole serves its word (R66): it answers, or is a `BOUND` whose first draw was rejected. -/
theorem exec_serves_word (s : State) {w : CmdWord} {i : Instr} (h : decode w = .ok i) :
    ∃ t, exec i s = .next t ∧ t.Serves s.regs w := by
  cases i with
  | load a b => exact ⟨_, rfl, Answers.load h⟩
  | seeds a b =>
    have regs := s.prime_regs a (or_one_or_one (shl64 b 1))
    have answer := Answers.seeds (g := s.regs) h
    rw [← shl64_one_or_one, ← regs] at answer
    exact ⟨_, rfl, answer⟩
  | seed a =>
    have answer := Answers.seed (g := s.regs) h
    rw [← s.prime_regs a rfl] at answer
    exact ⟨_, rfl, answer⟩
  | step => exact ⟨_, rfl, Answers.step h⟩
  | next => exact ⟨_, rfl, Answers.next h⟩
  | int63 =>
    have answer := Answers.int63 (g := s.regs) h
    rw [← int63Data_eq] at answer
    exact ⟨_, rfl, answer⟩
  | adv a => exact ⟨_, rfl, State.advFinish_serves h (advLoop_isSteps s.inc a)⟩
  | bound v =>
    by_cases zero : v = 0
    · subst zero
      exact ⟨_, rfl, Answers.boundZero h⟩
    · exact ⟨_, execBound_pos zero s, State.boundDraw_serves (k := 0) h zero (boundThreshold_toNat zero) rfl nofun⟩
  | rdstate => exact ⟨_, rfl, Answers.rdstate h⟩
  | rdinc => exact ⟨_, rfl, Answers.rdinc h⟩

/-- A command run whole serves its word and keeps the host's side. -/
theorem exec_serves {s t : State} {w : CmdWord} {i : Instr} (h : decode w = .ok i) (e : exec i s = .next t) :
    t.Serves s.regs w ∧ s.SameHost t := by
  obtain ⟨u, run, serves⟩ := exec_serves_word s h
  obtain ⟨v, run', host⟩ := exec_answers i s
  obtain rfl : u = t := Host.Outcome.next.inj (run.symm.trans e)
  obtain rfl : v = u := Host.Outcome.next.inj (run'.symm.trans e)
  exact ⟨serves, host⟩

/-- A command begun is being served (R29, R185). -/
theorem State.beginCommand_serves (s : State) {w : CmdWord} {i : Instr} (h : decode w = .ok i) :
    (s.beginCommand i).Serves s.regs w := by
  cases i with
  | bound v =>
    by_cases zero : v = 0
    · subst zero
      exact Answers.boundZero h
    · rw [State.beginCommand, if_neg zero]
      exact ⟨h, zero, boundThreshold_toNat zero, 0, rfl, nofun⟩
  | adv a => exact ⟨rfl, a, h, advInit_covers s.inc a⟩
  | _ => exact ⟨h, rfl⟩

/-- An accepted word is being served, in either grain (R41, R67). -/
theorem State.accept_serves {s t : State} {w : CmdWord} (e : s.accept w = .next t) :
    t.Serves s.regs w ∧ s.SameHost t := by
  cases d : decode w with
  | error err =>
    rw [accept_error d] at e
    obtain rfl := Host.Outcome.next.inj e
    exact ⟨Answers.illegal d, rfl, rfl, rfl, rfl, rfl, rfl⟩
  | ok i =>
    cases g : s.grain with
    | command =>
      rw [accept_command d g] at e
      exact exec_serves d e
    | transition =>
      rw [accept_transition d g] at e
      obtain rfl := Host.Outcome.next.inj e
      obtain ⟨-, -, host⟩ := s.beginCommand_frame i
      exact ⟨s.beginCommand_serves d, host⟩

end Sys2Proof.Machine
end

section
/-! PROOF of O13. -/

namespace Sys2Proof.Machine

/-- One more command answered, the last one. -/
theorem AnswersAll.snoc {g g' g'' : Regs} {ws : List CmdWord} {rs : List Response} {w : CmdWord} {r : Response}
    (all : AnswersAll g ws rs g') (last : Answers g' w r g'') : AnswersAll g (ws ++ [w]) (rs ++ [r]) g'' := by
  induction all with
  | nil => exact .cons last .nil
  | cons first _ ih => exact .cons first (ih last)

/-- While a word is served and the host is ready, a transition goes on serving it, or the answer is taken. -/
theorem State.Serves.transition {s t : State} {g : Regs} {w : CmdWord} (h : s.Serves g w) (coop : s.Cooperative)
    (e : s.transition = .next t) :
    (t.Serves g w ∧ s.SameHost t) ∨ ∃ r, Answers g w r s.regs ∧ t = s.takeResponse r := by
  have noReset : s.pins.rst = false := congrArg Pins.rst coop.1
  have ready : s.pins.rspReady = true := congrArg Pins.rspReady coop.1
  unfold State.Serves at h
  match p : s.phase with
  | .idle => rw [p] at h; exact h.elim
  | .busy (.simple i) =>
    rw [p] at h
    obtain ⟨decoded, rfl⟩ := h
    rw [transition_simple noReset p] at e
    exact .inl (exec_serves decoded e)
  | .busy (.adv c) =>
    rw [p] at h
    obtain ⟨rfl, a, decoded, covers⟩ := h
    rw [transition_adv noReset p] at e
    obtain rfl := Host.Outcome.next.inj e
    exact .inl ⟨advTransition_serves decoded covers, (s.advTransition_frame c).2⟩
  | .busy (.bound v x) =>
    rw [p] at h
    obtain ⟨decoded, pos, threshold, k, regs, rejected⟩ := h
    rw [transition_bound noReset p] at e
    obtain rfl := Host.Outcome.next.inj e
    exact .inl ⟨boundDraw_serves decoded pos threshold regs rejected, (s.boundDraw_frame v x).2⟩
  | .resp r =>
    rw [p] at h
    rw [transition_taken noReset p ready] at e
    exact .inr ⟨r, h, (Host.Outcome.next.inj e).symm⟩

/-- How far a run from `s₀` has come: the commands `done` have been answered in order, and the block waits for the next
one or serves it. -/
inductive State.Progress (s₀ : State) : State → Prop where
  /-- The block waits. -/
  | waiting {s done rs} (idle : s.phase = .idle) (taken : s.taken = s₀.taken ++ rs)
    (commands : s₀.commands = done ++ s.commands) (answered : AnswersAll s₀.regs done rs s.regs) : Progress s₀ s
  /-- The block serves the word `w`. -/
  | serving {s done rs g w} (serves : s.Serves g w) (taken : s.taken = s₀.taken ++ rs)
    (commands : s₀.commands = done ++ w :: s.commands) (answered : AnswersAll s₀.regs done rs g) : Progress s₀ s

/-- A transition keeps the progress, the pins and the host's plan. -/
theorem State.Progress.transition {s₀ s t : State} (h : s₀.Progress s) (coop : s.Cooperative)
    (e : s.transition = .next t) : s₀.Progress t ∧ t.pins = s.pins ∧ t.schedule = s.schedule := by
  have noReset : s.pins.rst = false := congrArg Pins.rst coop.1
  cases h with
  | waiting idle taken commands answered =>
    cases port : s.cmdPort with
    | none =>
      rw [transition_idle_none noReset idle port] at e
      obtain rfl := Host.Outcome.next.inj e
      exact ⟨.waiting idle taken commands answered, rfl, rfl⟩
    | some w =>
      obtain ⟨-, rest, list⟩ := cmdPort_eq_some.1 port
      rw [transition_idle_some noReset idle port, popCommand_cons list] at e
      obtain ⟨serves, host⟩ := accept_serves e
      exact ⟨.serving serves (host.taken.trans taken) (by rw [commands, list, host.commands]) answered,
        host.pins, host.schedule⟩
  | serving serves taken commands answered =>
    obtain ⟨serves, host⟩ | ⟨r, answer, rfl⟩ := serves.transition coop e
    · exact ⟨.serving serves (host.taken.trans taken) (by rw [commands, host.commands]) answered,
        host.pins, host.schedule⟩
    · refine ⟨.waiting rfl ?_ ?_ (answered.snoc answer), rfl, rfl⟩
      · rw [takeResponse_taken, taken, List.append_assoc]
      · rw [commands, takeResponse_commands, List.append_assoc, List.singleton_append]

/-- Under a cooperative host a step keeps the progress, and the host stays cooperative. -/
theorem State.Progress.step {s₀ : State} (s t : State) (h : s₀.Progress s ∧ s.Cooperative)
    (e : Machine.step s = .next t) : s₀.Progress t ∧ t.Cooperative := by
  obtain ⟨progress, coop⟩ := h
  obtain ⟨u, transition, rfl⟩ := step_next_iff.1 e
  obtain ⟨progress, pins, schedule⟩ := progress.transition coop transition
  have noPlan : u.schedule = [] := schedule.trans coop.2
  rw [hostTurn_nil _ noPlan]
  exact ⟨progress, pins.trans coop.1, noPlan⟩

/-- Settles O13: every step of the run keeps its progress, and an ended run is one that waits with nothing left to serve. -/
theorem aFinishedRunAnswersEveryCommandInOrder : Obligations.AFinishedRunAnswersEveryCommandInOrder := by
  intro s t n launch run ended
  obtain ⟨idle, coop⟩ := launch
  have start : s.Progress s := .waiting idle (List.append_nil _).symm (List.nil_append _).symm .nil
  obtain ⟨progress, -⟩ := run_keeps State.Progress.step ⟨start, coop⟩ run
  cases progress with
  | waiting _ taken commands answered =>
    rw [ended.noneWaiting, List.append_nil] at commands
    exact ⟨_, taken, commands ▸ answered⟩
  | serving serves =>
    rw [State.Serves, ended.idle] at serves
    exact serves.elim

end Sys2Proof.Machine
end

/-! # The state and the sequencer: what a step changes, keeps and forgets (R20 to R34) -/

section
/-! SUPPORT. What `exec` and the beginning of a command read and write, and that every transition answers. -/

namespace Sys2Proof.Machine

/-- An odd word has bit 0 set. -/
theorem getLsbD_zero_iff (x : Word64) : x.getLsbD 0 = true ↔ x.toNat % 2 = 1 := by
  rw [show x.getLsbD 0 = decide (x.toNat % 2 = 1) from Nat.testBit_zero _, decide_eq_true_iff]

/-- A meaning does not look at the phase (R29): it overwrites it. -/
theorem exec_withPhase (i : Instr) (s : State) (p : Phase) : exec i { s with phase := p } = exec i s := by
  cases i <;> rfl

/-- What `exec` answers has the same host's side. -/
theorem exec_sameHost {i : Instr} {s t : State} (e : exec i s = .next t) : s.SameHost t := by
  obtain ⟨u, run, host⟩ := exec_answers i s
  obtain rfl := Host.Outcome.next.inj (run.symm.trans e)
  exact host

/-- A command outside R22's three keeps `inc`, and every command keeps the host's side. -/
theorem exec_keeps_inc {i : Instr} (keeps : i.writesInc = false) (s : State) :
    ∃ t, exec i s = .next t ∧ t.inc = s.inc ∧ s.SameHost t := by
  cases i with
  | load | seeds | seed => cases keeps
  | bound w =>
    by_cases zero : w = 0
    · subst zero; exact ⟨_, rfl, rfl, rfl, rfl, rfl, rfl, rfl, rfl⟩
    · exact ⟨_, execBound_pos zero s, s.boundDraw_frame w _⟩
  | _ => exact ⟨_, rfl, rfl, rfl, rfl, rfl, rfl, rfl, rfl⟩

/-- A command that changed `inc` is one of R22's three. -/
theorem writesInc_of_exec_changes_inc {i : Instr} {s t : State} (e : exec i s = .next t) (changed : t.inc ≠ s.inc) :
    i.writesInc = true := by
  by_contra keeps
  obtain ⟨u, run, inc, -⟩ := exec_keeps_inc (Bool.not_eq_true _ ▸ keeps) s
  obtain rfl := Host.Outcome.next.inj (run.symm.trans e)
  exact changed inc

/-- A `BOUND W` with `W > 0` begins with its bound and threshold (R151, R185). -/
theorem State.beginCommand_bound {w : Word32} (pos : w ≠ 0) (s : State) :
    s.beginCommand (.bound w) = { s with phase := .busy (.bound w (boundThreshold w)) } :=
  if_neg pos

/-- The three commands that write `inc` have a simple context. -/
theorem isSimple_of_writesInc {i : Instr} (writes : i.writesInc = true) : i.isSimple = true := by
  cases i with
  | load | seeds | seed => rfl
  | _ => cases writes

/-- The three commands that write `inc` read neither register (R34, R93, R96). -/
theorem exec_forgets_regs {i : Instr} (writes : i.writesInc = true) (s : State) (x y : Word64) :
    exec i { s with state := x, inc := y } = exec i s := by
  cases i with
  | load | seeds | seed => rfl
  | _ => cases writes

/-- Every accepted word is answered with a next state (R67, R180). -/
theorem State.accept_answers (s : State) (w : CmdWord) : ∃ t, s.accept w = .next t := by
  cases d : decode w with
  | error e => exact ⟨_, accept_error d⟩
  | ok i =>
    cases g : s.grain with
    | command =>
      obtain ⟨t, run, -⟩ := exec_answers i s
      exact ⟨t, (accept_command d g).trans run⟩
    | transition => exact ⟨_, accept_transition d g⟩

/-- Every transition answers a next state (R180, R205). -/
theorem State.transition_answers (s : State) : ∃ t, s.transition = .next t := by
  cases r : s.pins.rst with
  | true => exact ⟨_, transition_rst r⟩
  | false =>
    match p : s.phase with
    | .idle =>
      cases port : s.cmdPort with
      | none => exact ⟨_, transition_idle_none r p port⟩
      | some w =>
        obtain ⟨t, run⟩ := s.popCommand.accept_answers w
        exact ⟨t, (transition_idle_some r p port).trans run⟩
    | .busy (.simple i) =>
      obtain ⟨t, run, -⟩ := exec_answers i s
      exact ⟨t, (transition_simple r p).trans run⟩
    | .busy (.adv c) => exact ⟨_, transition_adv r p⟩
    | .busy (.bound w x) => exact ⟨_, transition_bound r p⟩
    | .resp x =>
      cases y : s.pins.rspReady with
      | true => exact ⟨_, transition_taken r p y⟩
      | false => exact ⟨_, transition_held r p y⟩

end Sys2Proof.Machine
end

section
/-! SUPPORT. The steps of a block whose host leaves it alone, as equations. -/

namespace Sys2Proof.Machine

variable {s : State}

/-- A run of one step. -/
theorem run_one (s : State) : Sys2Proof.core.run 1 s = step s := by
  cases e : step s with
  | next t => exact run_succ_of_step 0 e
  | fault r => exact nomatch r
  | refused r =>
    have e' : Sys2Proof.core.step s = .refused r := e
    simp only [Host.Core.run, e']
    rfl

/-- An idle block takes the presented word off the host's list (R41, R43). -/
theorem State.transition_accepts (noReset : s.pins.rst = false) (idle : s.phase = .idle)
    (valid : s.pins.cmdValid = true) {w : CmdWord} {rest : List CmdWord} (list : s.commands = w :: rest) :
    s.transition = State.accept { s with commands := rest } w := by
  rw [transition_idle_some noReset idle (cmdPort_eq_some.2 ⟨valid, rest, list⟩), popCommand_cons list]

/-- With command grain the step that accepts a command runs it (R29, R41). -/
theorem step_runs (noReset : s.pins.rst = false) (idle : s.phase = .idle) (valid : s.pins.cmdValid = true)
    (grain : s.grain = .command) {w : CmdWord} {rest : List CmdWord} {i : Instr} {t : State}
    (list : s.commands = w :: rest) (decoded : decode w = .ok i) (run : exec i { s with commands := rest } = .next t) :
    step s = .next t.hostTurn := by
  apply step_of_transition
  rw [State.transition_accepts noReset idle valid list,
    State.accept_command (s := { s with commands := rest }) decoded grain, run]

/-- With transition grain the step that accepts a command begins it (R29, R41). -/
theorem step_begins (noReset : s.pins.rst = false) (idle : s.phase = .idle) (valid : s.pins.cmdValid = true)
    (noPlan : s.schedule = []) (grain : s.grain = .transition) {w : CmdWord} {rest : List CmdWord} {i : Instr}
    (list : s.commands = w :: rest) (decoded : decode w = .ok i) :
    step s = .next (State.beginCommand { s with commands := rest } i) := by
  obtain ⟨-, -, host⟩ := State.beginCommand_frame { s with commands := rest } i
  refine step_of_transition_nil ?_ (host.schedule.trans noPlan)
  rw [State.transition_accepts noReset idle valid list,
    State.accept_transition (s := { s with commands := rest }) decoded grain]

/-- A simple command that has begun runs whole (R29). -/
theorem step_simple (noReset : s.pins.rst = false) (noPlan : s.schedule = []) {i : Instr}
    (p : s.phase = .busy (.simple i)) : step s = exec i s := by
  obtain ⟨t, run, host⟩ := exec_answers i s
  rw [run]
  exact step_of_transition_nil ((State.transition_simple noReset p).trans run) (host.schedule.trans noPlan)

/-- What began as a simple command answers what `exec` answers (R29). -/
theorem step_beginCommand_simple (noReset : s.pins.rst = false) (noPlan : s.schedule = []) {i : Instr}
    (simple : i.isSimple = true) : step (s.beginCommand i) = exec i s := by
  rw [State.beginCommand_simple simple, ← exec_withPhase i s (.busy (.simple i))]
  exact step_simple (s := { s with phase := .busy (.simple i) }) noReset noPlan rfl

/-- A running `ADV` makes an iteration or ends (R132, R134). -/
theorem step_adv (noReset : s.pins.rst = false) (noPlan : s.schedule = []) {c : AdvCtx}
    (p : s.phase = .busy (.adv c)) : step s = .next (s.advTransition c) :=
  step_of_transition_nil (State.transition_adv noReset p) ((s.advTransition_frame c).2.schedule.trans noPlan)

/-- A running `BOUND` makes a draw (R153, R154). -/
theorem step_bound (noReset : s.pins.rst = false) (noPlan : s.schedule = []) {w x : Word32}
    (p : s.phase = .busy (.bound w x)) : step s = .next (s.boundDraw w x) :=
  step_of_transition_nil (State.transition_bound noReset p) ((s.boundDraw_frame w x).2.schedule.trans noPlan)

end Sys2Proof.Machine
end

section
/-! PROOF of O11: with transition grain the sequencer takes a command through its contexts to the state `exec` answers. -/

namespace Sys2Proof.Machine

/-- A running `ADV` reaches the end of its loop: a step for each iteration, and one for the final assignment (R133, R134). -/
theorem run_adv (fuel : Nat) {s : State} {c : AdvCtx} (noReset : s.pins.rst = false) (noPlan : s.schedule = [])
    (p : s.phase = .busy (.adv c)) (enough : c.delta.toNat < 2 ^ fuel) :
    ∃ n ≤ fuel, Sys2Proof.core.run (n + 1) s = .next (s.advFinish (advLoop fuel c)) := by
  induction fuel generalizing s c with
  | zero =>
    have done : c.delta = 0 := BitVec.eq_of_toNat_eq (Nat.lt_one_iff.1 enough)
    have ends := step_adv noReset noPlan p
    rw [State.advTransition_ends done] at ends
    exact ⟨0, le_rfl, run_succ_of_step 0 ends⟩
  | succ fuel ih =>
    have moves := step_adv noReset noPlan p
    by_cases done : c.delta = 0
    · rw [State.advTransition_ends done] at moves
      exact ⟨0, Nat.zero_le _, by rw [run_succ_of_step 0 moves, advLoop, if_pos done]; rfl⟩
    · rw [State.advTransition_iterates done] at moves
      have halved : (advIterate c).delta.toNat < 2 ^ fuel := by rw [advIterate_delta]; omega
      obtain ⟨n, bound, run⟩ := ih (s := { s with phase := .busy (.adv (advIterate c)) }) noReset noPlan rfl halved
      exact ⟨n + 1, Nat.succ_le_succ bound, by rw [run_succ_of_step _ moves, run, advLoop, if_neg done]; rfl⟩

/-- A command begun reaches, within 65 steps, the state `exec` answers (R29, R133). -/
theorem run_beginCommand {s : State} (noReset : s.pins.rst = false) (noPlan : s.schedule = []) (i : Instr) :
    ∃ n ≤ 65, Sys2Proof.core.run n (s.beginCommand i) = exec i s := by
  by_cases simple : i.isSimple = true
  · exact ⟨1, by omega, (run_one _).trans (step_beginCommand_simple noReset noPlan simple)⟩
  cases i with
  | adv a =>
    obtain ⟨n, bound, run⟩ := run_adv (s := s.beginCommand (.adv a)) 64 noReset noPlan rfl a.isLt
    exact ⟨n + 1, Nat.succ_le_succ bound, run⟩
  | bound w =>
    by_cases zero : w = 0
    · subst zero
      exact ⟨0, Nat.zero_le _, rfl⟩
    · rw [State.beginCommand_bound zero, execBound_pos zero]
      exact ⟨1, by omega, (run_one _).trans
        (step_bound (s := { s with phase := .busy (.bound w (boundThreshold w)) }) noReset noPlan rfl)⟩
  | _ => exact absurd rfl simple

/-- Settles O11: the accepting step begins the command, and what it begins reaches what `exec` answers; only the loop of
`ADV` needs more than one further step, at most one for each of the 64 bits of its operand and one to end. -/
theorem transitionsReachWhatExecAnswers : Obligations.TransitionsReachWhatExecAnswers := by
  intro s w rest i noReset idle valid list noPlan grain decoded
  obtain ⟨n, bound, run⟩ := run_beginCommand (s := { s with commands := rest }) noReset noPlan i
  have begins := step_begins noReset idle valid noPlan grain list decoded
  exact ⟨n + 1, Nat.succ_pos n, Nat.succ_le_succ bound, (run_succ_of_step n begins).trans run⟩

end Sys2Proof.Machine
end

section
/-! PROOF of O12: the invariant, operation by operation. -/

namespace Sys2Proof.Machine

/-- The current pair after an iteration stands for twice as many steps (R132, R135). -/
theorem advIterate_cur_isSteps {inc : Word64} {c : AdvCtx} {k : Nat} (cur : IsSteps inc c.curMult c.curPlus (2 ^ k)) :
    IsSteps inc (advIterate c).curMult (advIterate c).curPlus (2 ^ (k + 1)) := by
  have square : add64 (mul64 c.curPlus c.curMult) c.curPlus = mul64 (add64 c.curMult 1) c.curPlus := by
    simp only [add64, mul64]; ring
  have twice := cur.comp cur
  rw [square, ← Nat.two_mul, ← Nat.pow_succ'] at twice
  unfold advIterate
  split <;> exact twice

/-- The accumulator pair after an iteration takes in the current pair when `delta` is odd (R132, R135). -/
theorem advIterate_acc_isSteps {inc : Word64} {c : AdvCtx} {k m : Nat} (acc : IsSteps inc c.accMult c.accPlus m)
    (cur : IsSteps inc c.curMult c.curPlus (2 ^ k)) :
    IsSteps inc (advIterate c).accMult (advIterate c).accPlus (m + c.delta.toNat % 2 * 2 ^ k) := by
  unfold advIterate
  split
  case isTrue odd =>
    rw [(getLsbD_zero_iff _).1 odd, Nat.one_mul]
    exact acc.comp cur
  case isFalse even =>
    rw [Nat.mod_two_ne_one.1 ((getLsbD_zero_iff _).not.1 even), Nat.zero_mul]
    exact acc

/-- The context `ADV` starts with is well-formed (R131). -/
theorem advInit_wf (inc a : Word64) : (advInit a (inc ||| 1)).Wf inc :=
  ⟨0, 0, Nat.zero_le _, Nat.one_pos, by simpa [advInit] using a.isLt, isSteps_zero inc, isSteps_one inc⟩

/-- An iteration with distance left keeps the context well-formed (R132, R135). -/
theorem AdvCtx.Wf.advIterate {inc : Word64} {c : AdvCtx} (h : c.Wf inc) (more : c.delta ≠ 0) :
    (advIterate c).Wf inc := by
  obtain ⟨k, m, -, small, total, acc, cur⟩ := h
  have pos : 1 ≤ c.delta.toNat := Nat.pos_of_ne_zero fun z => more (BitVec.eq_of_toNat_eq z)
  have room : k < 64 := by
    refine (Nat.pow_lt_pow_iff_right (a := 2) (by omega)).1 (lt_of_le_of_lt ?_ total)
    exact (Nat.le_mul_of_pos_left _ pos).trans (Nat.le_add_right _ _)
  have small' : m + c.delta.toNat % 2 * 2 ^ k < 2 ^ (k + 1) := by
    have bit : c.delta.toNat % 2 * 2 ^ k ≤ 1 * 2 ^ k := Nat.mul_le_mul_right _ (by omega)
    rw [Nat.pow_succ]
    omega
  have same : (Machine.advIterate c).delta.toNat * 2 ^ (k + 1) + (m + c.delta.toNat % 2 * 2 ^ k) =
      c.delta.toNat * 2 ^ k + m :=
    calc _ = (2 * (c.delta.toNat / 2) + c.delta.toNat % 2) * 2 ^ k + m := by rw [advIterate_delta]; ring
      _ = c.delta.toNat * 2 ^ k + m := by rw [Nat.div_add_mod]
  exact ⟨k + 1, _, room, small', same ▸ total, advIterate_acc_isSteps acc cur, advIterate_cur_isSteps cur⟩

/-- A response with status `OK` is well-formed, whatever its data (R72). -/
theorem State.respond_ok_wf (s : State) (inc d : Word64) : (s.respond .ok d).phase.Wf inc := fun err => absurd rfl err

/-- An error response carries data 0 (R72, R187). -/
theorem State.raise_wf (s : State) (inc : Word64) (e : CmdError) : (s.raise e).phase.Wf inc := fun _ => rfl

/-- A transition of `ADV` keeps its context well-formed (R132, R134). -/
theorem State.advTransition_wf {s : State} {c : AdvCtx} (h : c.Wf s.inc) : (s.advTransition c).phase.Wf s.inc := by
  by_cases done : c.delta = 0
  · rw [advTransition_ends done]
    exact State.respond_ok_wf _ _ _
  · rw [advTransition_iterates done]
    exact h.advIterate done

/-- A draw of `BOUND` keeps its bound and its threshold (R153, R154). -/
theorem State.boundDraw_wf {s : State} {w t : Word32} (h : (Ctx.bound w t).Wf s.inc) :
    (s.boundDraw w t).phase.Wf s.inc := by
  obtain ⟨-, draw⟩ | ⟨-, draw⟩ := s.boundDraw_cases w t <;> rw [draw]
  · exact State.respond_ok_wf _ _ _
  · exact h

/-- The context `BOUND` starts with (R151). -/
theorem boundThreshold_wf {w : Word32} (inc : Word64) (pos : w ≠ 0) : (Ctx.bound w (boundThreshold w)).Wf inc :=
  ⟨pos, boundThreshold_toNat pos⟩

/-- A command leaves a phase the rules describe (R29, R72). -/
theorem exec_wf {i : Instr} {s t : State} (e : exec i s = .next t) : t.phase.Wf t.inc := by
  cases i with
  | bound w =>
    by_cases zero : w = 0
    · subst zero
      obtain rfl := Host.Outcome.next.inj e
      exact s.raise_wf _ .invalidArg
    · obtain rfl := Host.Outcome.next.inj ((execBound_pos zero s).symm.trans e)
      rw [(s.boundDraw_frame w _).1]
      exact State.boundDraw_wf (boundThreshold_wf s.inc zero)
  | _ =>
    obtain rfl := Host.Outcome.next.inj e
    exact State.respond_ok_wf _ _ _

/-- A command begins with a context the rules describe (R29, R131, R151). -/
theorem State.beginCommand_wf (s : State) (i : Instr) : (s.beginCommand i).phase.Wf s.inc := by
  cases i with
  | adv a => exact advInit_wf s.inc a
  | bound w =>
    by_cases zero : w = 0
    · subst zero
      exact s.raise_wf _ .invalidArg
    · rw [State.beginCommand_bound zero]
      exact boundThreshold_wf s.inc zero
  | _ => exact rfl

/-- The invariant rests on the phase, `inc` and the responses taken. -/
theorem State.Inv.of_same_taken {s t : State} (h : s.Inv) (taken : t.taken = s.taken) (phase : t.phase.Wf t.inc) :
    t.Inv :=
  ⟨phase, taken ▸ h.2⟩

/-- A response taken joins the well-formed ones. -/
theorem State.Inv.takeResponse {s : State} (h : s.Inv) {r : Response} (wf : r.Wf) : (s.takeResponse r).Inv := by
  refine ⟨trivial, fun x mem => ?_⟩
  rw [takeResponse_taken, List.mem_append, List.mem_singleton] at mem
  obtain before | rfl := mem
  · exact h.2 x before
  · exact wf

/-- A transition keeps the invariant. -/
theorem State.Inv.transition {s t : State} (h : s.Inv) (e : s.transition = .next t) : t.Inv := by
  have wf : s.phase.Wf s.inc := h.1
  obtain ⟨-, rfl⟩ | ⟨-, ⟨-, -, rfl⟩ | ⟨w, _, -, -, -, rfl⟩ | ⟨w, i, -, -, -, ⟨-, run⟩ | ⟨-, rfl⟩⟩ | ⟨i, -, run⟩ |
    ⟨c, p, rfl⟩ | ⟨w, x, p, rfl⟩ | ⟨r, p, ⟨-, rfl⟩ | ⟨-, rfl⟩⟩⟩ := transition_cases e
  · exact h.of_same_taken rfl trivial
  · exact h
  · exact h.of_same_taken rfl (raise_wf _ _ .illegalCmd)
  · exact h.of_same_taken (exec_sameHost run).taken (exec_wf run)
  · obtain ⟨-, inc, host⟩ := s.popCommand.beginCommand_frame i
    exact h.of_same_taken host.taken (inc ▸ s.popCommand.beginCommand_wf i)
  · exact h.of_same_taken (exec_sameHost run).taken (exec_wf run)
  · rw [p] at wf
    obtain ⟨inc, host⟩ := s.advTransition_frame c
    exact h.of_same_taken host.taken (inc ▸ advTransition_wf wf)
  · rw [p] at wf
    obtain ⟨inc, host⟩ := s.boundDraw_frame w x
    exact h.of_same_taken host.taken (inc ▸ boundDraw_wf wf)
  · rw [p] at wf
    exact h.takeResponse wf
  · exact h

/-- The host's turn keeps the invariant: it touches neither the block nor the responses taken. -/
theorem State.Inv.hostTurn {s : State} (h : s.Inv) : s.hostTurn.Inv :=
  h.of_same_taken s.hostTurn_taken (by rw [hostTurn_phase, hostTurn_inc]; exact h.1)

/-- Settles O12: a transition keeps the invariant, by the cases of what it can do, and so does the host's turn. -/
theorem everyStepKeepsTheInvariant : Obligations.EveryStepKeepsTheInvariant := by
  intro s t h e
  obtain ⟨u, transition, rfl⟩ := step_next_iff.1 e
  exact (h.transition transition).hostTurn

end Sys2Proof.Machine
end

section
/-! PROOF of O22: two states that differ in bit 0 of `inc` at most stay so, operation by operation (R23, R24). -/

namespace Sys2Proof.Machine

/-- `Step()` reads `inc` through `inc | 1` only (R23, R100). -/
theorem lcg_congr {inc inc' : Word64} (h : inc' ||| 1 = inc ||| 1) (x : Word64) : lcg inc' x = lcg inc x := by
  rw [lcg_eq, lcg_eq, h]

namespace State.SameUpToIncBit

variable {s s' : State}

theorem withPhase (h : s.SameUpToIncBit s') (p : Phase) :
    SameUpToIncBit { s with phase := p } { s' with phase := p } :=
  { h with phase := .inl rfl }

theorem setReg_state (h : s.SameUpToIncBit s') (v : Word64) :
    (s.setReg .state v).SameUpToIncBit (s'.setReg .state v) :=
  { h with state := rfl }

theorem setReg_inc (h : s.SameUpToIncBit s') (v : Word64) : (s.setReg .inc v).SameUpToIncBit (s'.setReg .inc v) :=
  { h with inc := rfl }

theorem lcgStep (h : s.SameUpToIncBit s') : s.lcgStep.SameUpToIncBit s'.lcgStep :=
  { h with state := by rw [lcgStep_state, lcgStep_state, h.state, lcg_congr h.inc] }

theorem popCommand (h : s.SameUpToIncBit s') : s.popCommand.SameUpToIncBit s'.popCommand :=
  { h with commands := congrArg List.tail h.commands }

theorem resetBlock (h : s.SameUpToIncBit s') : s.resetBlock.SameUpToIncBit s'.resetBlock :=
  { h with
    state := congrArg Config.resetState h.resets
    inc := congrArg (Config.resetInc · ||| 1) h.resets
    phase := .inl rfl
    resets := congrArg (· + 1) h.resets }

theorem takeResponse (h : s.SameUpToIncBit s') {r r' : Response} (same : r.SameUpToBit0 r') :
    (s.takeResponse r).SameUpToIncBit (s'.takeResponse r') :=
  { h with
    phase := .inl rfl
    taken := List.rel_append h.taken (.cons same .nil) }

theorem hostTurn (h : s.SameUpToIncBit s') : s.hostTurn.SameUpToIncBit s'.hostTurn := by
  unfold State.hostTurn
  rw [h.schedule]
  cases s.schedule with
  | nil => exact h
  | cons m rest => exact { h with pins := rfl, commands := congrArg m.commands.getD h.commands, schedule := rfl }

theorem cmdPort (h : s.SameUpToIncBit s') : s'.cmdPort = s.cmdPort := by
  rw [State.cmdPort, State.cmdPort, h.pins, h.commands]

/-- Two states give the same answer: their phases are equal, and the rest is as before. -/
theorem respond (h : s.SameUpToIncBit s') (st : Status) {d d' : Word64} (same : d' = d) :
    (s.respond st d).SameUpToIncBit (s'.respond st d') ∧ (s'.respond st d').phase = (s.respond st d).phase := by
  subst same
  exact ⟨h.withPhase _, rfl⟩

/-- Seeding starts from fixed registers. -/
theorem prime (h : s.SameUpToIncBit s') (a i : Word64) : (s.prime a i).SameUpToIncBit (s'.prime a i) :=
  (((h.setReg_state 0).setReg_inc i).lcgStep.setReg_state _).lcgStep

theorem advFinish (h : s.SameUpToIncBit s') (c : AdvCtx) :
    (s.advFinish c).SameUpToIncBit (s'.advFinish c) ∧ (s'.advFinish c).phase = (s.advFinish c).phase := by
  unfold State.advFinish
  rw [reg_state, reg_state, h.state]
  exact (h.setReg_state _).respond .ok rfl

theorem advTransition (h : s.SameUpToIncBit s') (c : AdvCtx) :
    (s.advTransition c).SameUpToIncBit (s'.advTransition c) := by
  by_cases done : c.delta = 0
  · rw [advTransition_ends done, advTransition_ends done]
    exact (h.advFinish c).1
  · rw [advTransition_iterates done, advTransition_iterates done]
    exact h.withPhase _

theorem boundDraw (h : s.SameUpToIncBit s') (w t : Word32) :
    (s.boundDraw w t).SameUpToIncBit (s'.boundDraw w t) ∧ (s'.boundDraw w t).phase = (s.boundDraw w t).phase := by
  have draw : xshRr s'.state = xshRr s.state := congrArg xshRr h.state
  obtain ⟨accepts, run⟩ | ⟨rejects, run⟩ := s.boundDraw_cases w t
  · rw [run, boundDraw_accepts (s := s') (draw ▸ accepts), draw]
    exact h.lcgStep.respond .ok rfl
  · rw [run, boundDraw_rejects (s := s') (draw ▸ rejects)]
    exact ⟨h.lcgStep.withPhase _, rfl⟩

end State.SameUpToIncBit

/-- Every command but `RDINC` answers the same from two such states (R24). -/
theorem exec_sameUpToIncBit {i : Instr} {s s' : State} (h : s.SameUpToIncBit s') (other : i ≠ .rdinc) :
    ∃ t t', exec i s = .next t ∧ exec i s' = .next t' ∧ t.SameUpToIncBit t' ∧ t'.phase = t.phase := by
  cases i with
  | load a b => exact ⟨_, _, rfl, rfl, ((h.setReg_state a).setReg_inc b).respond .ok rfl⟩
  | seeds a b => exact ⟨_, _, rfl, rfl, (h.prime a _).respond .ok rfl⟩
  | seed a => exact ⟨_, _, rfl, rfl, (h.prime a 1).respond .ok rfl⟩
  | step => exact ⟨_, _, rfl, rfl, h.lcgStep.respond .ok rfl⟩
  | next => exact ⟨_, _, rfl, rfl, h.lcgStep.respond .ok (congrArg (zext64 <| xshRr ·) h.state)⟩
  | int63 =>
    have later : s'.lcgStep.state = s.lcgStep.state := h.lcgStep.state
    refine ⟨_, _, rfl, rfl, h.lcgStep.lcgStep.respond .ok ?_⟩
    rw [State.draw_fst, State.draw_fst, State.draw_fst, State.draw_fst, State.draw_snd, State.draw_snd, h.state, later]
  | adv a =>
    have odd : s'.oddInc = s.oddInc := h.inc
    refine ⟨_, _, rfl, rfl, ?_⟩
    rw [odd]
    exact h.advFinish _
  | bound w =>
    by_cases zero : w = 0
    · subst zero
      exact ⟨_, _, rfl, rfl, h.withPhase _, rfl⟩
    · exact ⟨_, _, execBound_pos zero s, execBound_pos zero s', h.boundDraw w _⟩
  | rdstate => exact ⟨_, _, rfl, rfl, h.respond .ok h.state⟩
  | rdinc => exact absurd rfl other

namespace State.SameUpToIncBit

variable {s s' : State}

/-- Every command keeps the two states alike; `RDINC` answers data that differ in bit 0 at most (R24). -/
theorem exec (h : s.SameUpToIncBit s') (i : Instr) :
    ∃ t t', Machine.exec i s = .next t ∧ Machine.exec i s' = .next t' ∧ t.SameUpToIncBit t' := by
  by_cases readback : i = .rdinc
  · subst readback
    exact ⟨_, _, rfl, rfl, { h with phase := .inr ⟨_, _, rfl, rfl, rfl, h.inc⟩ }⟩
  · obtain ⟨t, t', run, run', same, -⟩ := exec_sameUpToIncBit h readback
    exact ⟨t, t', run, run', same⟩

theorem beginCommand (h : s.SameUpToIncBit s') (i : Instr) :
    (s.beginCommand i).SameUpToIncBit (s'.beginCommand i) := by
  cases i with
  | adv a =>
    have odd : s'.oddInc = s.oddInc := h.inc
    rw [State.beginCommand, State.beginCommand, odd]
    exact h.withPhase _
  | bound w =>
    by_cases zero : w = 0
    · subst zero
      exact h.withPhase _
    · rw [State.beginCommand_bound zero, State.beginCommand_bound zero]
      exact h.withPhase _
  | _ => exact h.withPhase _

theorem accept (h : s.SameUpToIncBit s') (w : CmdWord) :
    ∃ t t', s.accept w = .next t ∧ s'.accept w = .next t' ∧ t.SameUpToIncBit t' := by
  cases d : decode w with
  | error e => exact ⟨_, _, accept_error d, accept_error d, h.withPhase _⟩
  | ok i =>
    cases g : s.grain with
    | command =>
      rw [accept_command d g, accept_command d (h.grain.trans g)]
      exact h.exec i
    | transition =>
      exact ⟨_, _, accept_transition d g, accept_transition d (h.grain.trans g), h.beginCommand i⟩

/-- Two presented responses that agree but for bit 0 are taken, or wait, together. -/
theorem transition_resp (h : s.SameUpToIncBit s') (noReset : s.pins.rst = false) {r r' : Response}
    (p : s.phase = .resp r) (p' : s'.phase = .resp r') (same : r.SameUpToBit0 r') :
    ∃ t t', s.transition = .next t ∧ s'.transition = .next t' ∧ t.SameUpToIncBit t' := by
  have noReset' : s'.pins.rst = false := h.pins ▸ noReset
  cases ready : s.pins.rspReady with
  | true =>
    have ready' : s'.pins.rspReady = true := h.pins ▸ ready
    exact ⟨_, _, transition_taken noReset p ready, transition_taken noReset' p' ready', h.takeResponse same⟩
  | false =>
    have ready' : s'.pins.rspReady = false := h.pins ▸ ready
    exact ⟨_, _, transition_held noReset p ready, transition_held noReset' p' ready', h⟩

theorem transition (h : s.SameUpToIncBit s') :
    ∃ t t', s.transition = .next t ∧ s'.transition = .next t' ∧ t.SameUpToIncBit t' := by
  cases rst : s.pins.rst with
  | true => exact ⟨_, _, transition_rst rst, transition_rst (h.pins ▸ rst), h.resetBlock⟩
  | false =>
    have rst' : s'.pins.rst = false := h.pins ▸ rst
    obtain same | ⟨r, r', p, p', same⟩ := h.phase
    · match p : s.phase with
      | .idle =>
        have p' := same.trans p
        cases port : s.cmdPort with
        | none =>
          exact ⟨_, _, transition_idle_none rst p port, transition_idle_none rst' p' (h.cmdPort.trans port), h⟩
        | some w =>
          rw [transition_idle_some rst p port, transition_idle_some rst' p' (h.cmdPort.trans port)]
          exact h.popCommand.accept w
      | .busy (.simple i) =>
        rw [transition_simple rst p, transition_simple rst' (same.trans p)]
        exact h.exec i
      | .busy (.adv c) =>
        exact ⟨_, _, transition_adv rst p, transition_adv rst' (same.trans p), h.advTransition c⟩
      | .busy (.bound w x) =>
        exact ⟨_, _, transition_bound rst p, transition_bound rst' (same.trans p), (h.boundDraw w x).1⟩
      | .resp r => exact h.transition_resp rst p (same.trans p) ⟨rfl, rfl⟩
    · exact h.transition_resp rst p p' same

theorem step (h : s.SameUpToIncBit s') :
    ∃ t t', Machine.step s = .next t ∧ Machine.step s' = .next t' ∧ t.SameUpToIncBit t' := by
  obtain ⟨t, t', run, run', same⟩ := h.transition
  exact ⟨_, _, step_of_transition run, step_of_transition run', same.hostTurn⟩

theorem run (h : s.SameUpToIncBit s') (n : Nat) :
    ∃ t t', Sys2Proof.core.run n s = .next t ∧ Sys2Proof.core.run n s' = .next t' ∧ t.SameUpToIncBit t' := by
  induction n generalizing s s' with
  | zero => exact ⟨s, s', rfl, rfl, h⟩
  | succ n ih =>
    obtain ⟨t, t', first, first', same⟩ := h.step
    rw [run_succ_of_step n first, run_succ_of_step n first']
    exact ih same

end State.SameUpToIncBit

/-- Settles O22: every operation reads `inc` through `inc | 1`, but for `RDINC`, whose data carry the difference. -/
theorem evenAndOddIncrementsDifferOnlyInReadback : Obligations.EvenAndOddIncrementsDifferOnlyInReadback := by
  refine ⟨fun i s s' h other => ?_, fun s s' n h => h.run n⟩
  obtain ⟨t, t', run, run', same, phase⟩ := exec_sameUpToIncBit h other
  exact ⟨t, t', run, run', phase, same.state⟩

end Sys2Proof.Machine
end

section
/-! PROOF of O10: the pc counts the responses taken (R26). -/

namespace Sys2Proof.Machine

/-- Settles O10: of all a transition can do, only the taking of a response adds to the responses taken. -/
theorem hostPcCountsResponsesTaken : Obligations.HostPcCountsResponsesTaken := by
  intro s
  obtain ⟨u, transition⟩ := s.transition_answers
  refine ⟨_, step_of_transition transition, ?_⟩
  rw [State.hostPc, State.hostPc, State.hostTurn_taken]
  obtain ⟨reset, rfl⟩ | ⟨noReset, ⟨p, -, rfl⟩ | ⟨w, _, p, -, -, rfl⟩ | ⟨w, i, p, -, -, ⟨-, run⟩ | ⟨-, rfl⟩⟩ | ⟨i, p, run⟩ |
    ⟨c, p, rfl⟩ | ⟨w, x, p, rfl⟩ | ⟨r, p, ⟨ready, rfl⟩ | ⟨ready, rfl⟩⟩⟩ := State.transition_cases transition
  · cases s.phase <;> simp [reset]
  · simp [p]
  · simp [p]
  · simp [p, (exec_sameHost run).taken]
  · simp [p, (s.popCommand.beginCommand_frame i).2.2.taken]
  · simp [p, (exec_sameHost run).taken]
  · simp [p, (s.advTransition_frame c).2.taken]
  · simp [p, (s.boundDraw_frame w x).2.taken]
  · simp [p, noReset, ready]
  · simp [p, ready]

end Sys2Proof.Machine
end

section
/-! PROOF of O18: the increments of sequence values (R25). -/

namespace Sys2Proof.Machine

/-- The increment of a sequence value: bit 0 is set, and above it stand the low 63 bits of the value (R25, R91). -/
theorem seeded_inc_toNat (q : Word64) : (shl64 q 1 ||| 1).toNat = 2 * (q.toNat % 2 ^ 63) + 1 := by
  rw [shl64_one_or_one, BitVec.toNat_add, BitVec.toNat_mul]
  show (2 * q.toNat % 2 ^ 64 + 1) % 2 ^ 64 = _
  omega

/-- Settles O18: the increment of a sequence value `q` is `2 * q + 1` modulo 2^64. -/
theorem sequenceValuesSelectStreamsByTheirLow63Bits : Obligations.SequenceValuesSelectStreamsByTheirLow63Bits := by
  refine ⟨fun a a' q q' s s' t t' run run' => ?_, fun v odd => ⟨v >>> 1, fun a s => ⟨_, rfl, ?_⟩⟩⟩
  · obtain rfl := Host.Outcome.next.inj run
    obtain rfl := Host.Outcome.next.inj run'
    show shl64 q 1 ||| 1 = shl64 q' 1 ||| 1 ↔ _
    rw [← BitVec.toNat_inj, seeded_inc_toNat, seeded_inc_toNat]
    omega
  · have bit : v.toNat % 2 = 1 := (getLsbD_zero_iff v).1 odd
    have small := v.isLt
    show shl64 (v >>> 1) 1 ||| 1 = v
    rw [← BitVec.toNat_inj, seeded_inc_toNat, BitVec.toNat_ushiftRight, Nat.shiftRight_one]
    omega

end Sys2Proof.Machine
end

section
/-! PROOF of O20 and O21: who writes `inc` (R22, R95), and what a seeding forgets (R34, R93, R96). -/

namespace Sys2Proof.Machine

/-- Settles O20: of all a step can do, only a reset and a command that `exec` runs may change `inc`, and such a command is
one of R22's three. -/
theorem aStepChangesIncOnlyByResetOrSeeding : Obligations.AStepChangesIncOnlyByResetOrSeeding := by
  intro s t e changed
  obtain ⟨u, transition, rfl⟩ := step_next_iff.1 e
  rw [State.hostTurn_inc] at changed
  obtain ⟨reset, -⟩ | ⟨-, ⟨-, -, rfl⟩ | ⟨w, _, -, -, -, rfl⟩ | ⟨w, i, idle, port, decoded, ⟨-, run⟩ | ⟨-, rfl⟩⟩ |
    ⟨i, p, run⟩ | ⟨c, -, rfl⟩ | ⟨w, x, -, rfl⟩ | ⟨r, -, ⟨-, rfl⟩ | ⟨-, rfl⟩⟩⟩ := State.transition_cases transition
  · exact .inl reset
  · exact absurd rfl changed
  · exact absurd rfl changed
  · exact .inr ⟨i, writesInc_of_exec_changes_inc run changed, .inr ⟨idle, w, port, decoded⟩⟩
  · exact absurd (s.popCommand.beginCommand_frame i).2.1 changed
  · exact .inr ⟨i, writesInc_of_exec_changes_inc run changed, .inl p⟩
  · exact absurd (s.advTransition_frame c).1 changed
  · exact absurd (s.boundDraw_frame w x).1 changed
  · exact absurd rfl changed
  · exact absurd rfl changed

/-- Settles O21: the command seeds in the first step, or begins in the first and seeds in the second, and its meaning
reads neither register; from there on the two runs are one. -/
theorem seedingForgetsThePast : Obligations.SeedingForgetsThePast := by
  intro s x y n noReset idle valid ⟨w, rest, i, list, decoded, writes⟩
  obtain ⟨t, run, -⟩ := exec_answers i { s with commands := rest }
  have run' := (exec_forgets_regs writes { s with commands := rest } x y).trans run
  refine ⟨fun grain => ?_, fun grain noPlan => ?_⟩
  · have first := step_runs noReset idle valid grain list decoded run
    have first' := step_runs (s := { s with state := x, inc := y }) noReset idle valid grain list decoded run'
    rw [run_succ_of_step n first, run_succ_of_step n first']
  · have simple := isSimple_of_writesInc writes
    have first := step_begins noReset idle valid noPlan grain list decoded
    have first' := step_begins (s := { s with state := x, inc := y }) noReset idle valid noPlan grain list decoded
    have second := (step_beginCommand_simple (s := { s with commands := rest }) noReset noPlan simple).trans run
    have second' := (step_beginCommand_simple (s := { s with commands := rest, state := x, inc := y })
      noReset noPlan simple).trans run'
    rw [run_succ_of_step (n + 1) first, run_succ_of_step (n + 1) first', run_succ_of_step n second,
      run_succ_of_step n second']

end Sys2Proof.Machine
end

section
/-! PROOF of O6, O49, O50, O51: the state after reset (R32, R200) and the frames of the commands (R21, R22, R54). -/

namespace Sys2Proof.Machine

/-- Settles O6: `State.reset` is written so; with no context and no response taken the invariant holds. -/
theorem resetStateIsIdleAndWellFormed : Obligations.ResetStateIsIdleAndWellFormed :=
  ⟨rfl, rfl, rfl, rfl, rfl, trivial, nofun⟩

/-- Settles O49: none of the five is one of R22's three. -/
theorem frameOfTheSteppingCommands : Obligations.FrameOfTheSteppingCommands := by
  intro s i stepping
  have keeps : i.writesInc = false := by
    obtain rfl | rfl | rfl | ⟨a, rfl⟩ | ⟨w, rfl⟩ := stepping <;> rfl
  exact exec_keeps_inc keeps s

/-- Settles O50: each of the three ends in `respond`. -/
theorem frameOfTheSeedingCommands : Obligations.FrameOfTheSeedingCommands := by
  intro s i seeding
  obtain ⟨t, run, host⟩ := exec_answers i s
  refine ⟨t, run, ?_, host⟩
  obtain ⟨a, b, rfl⟩ | ⟨a, b, rfl⟩ | ⟨a, rfl⟩ := seeding <;> exact Host.Outcome.next.inj run ▸ rfl

/-- Settles O51: each of the three only answers. -/
theorem frameOfTheReadingCommands : Obligations.FrameOfTheReadingCommands := by
  intro s i reading
  have keeps : i.writesInc = false := by
    obtain rfl | rfl | rfl := reading <;> rfl
  obtain ⟨t, run, inc, host⟩ := exec_keeps_inc keeps s
  refine ⟨t, run, ?_, inc, host⟩
  obtain rfl | rfl | rfl := reading <;> exact Host.Outcome.next.inj run ▸ rfl

end Sys2Proof.Machine
end

/-! # The two ports (spec/20_memory.md R41 to R54) -/

section
/-! SUPPORT. A transition seen from the two ports: what it does to the host's list, the block and the responses taken. -/

namespace Sys2Proof.Machine

variable {s t : State}

/-- A command is in the block exactly when the phase is not `IDLE`. -/
theorem Phase.inFlight_eq_one_iff {p : Phase} : p.inFlight = 1 ↔ p ≠ .idle := by
  cases p <;> simp [Phase.inFlight]

/-- A response presented is a command in the block. -/
theorem Phase.inFlight_of_resp {p : Phase} {r : Response} (h : p = .resp r) : p.inFlight = 1 := by
  rw [h]; rfl

/-- After a draw the `BOUND` is still in the block, running or answered (R153, R154). -/
theorem State.boundDraw_inFlight (s : State) (w x : Word32) : (s.boundDraw w x).phase.inFlight = 1 := by
  obtain ⟨-, h⟩ | ⟨-, h⟩ := s.boundDraw_cases w x <;> rw [h] <;> rfl

/-- After a transition of `ADV` it is still in the block, running or answered (R132, R134). -/
theorem State.advTransition_inFlight (s : State) (c : AdvCtx) : (s.advTransition c).phase.inFlight = 1 := by
  by_cases done : c.delta = 0
  · rw [State.advTransition_ends done]; rfl
  · rw [State.advTransition_iterates done]; rfl

/-- A command that `exec` has run is in the block until its response is taken. -/
theorem exec_inFlight {i : Instr} (e : exec i s = .next t) : t.phase.inFlight = 1 := by
  cases i with
  | bound w =>
    by_cases zero : w = 0
    · subst zero; exact Host.Outcome.next.inj e ▸ rfl
    · obtain rfl := Host.Outcome.next.inj ((execBound_pos zero s).symm.trans e)
      exact s.boundDraw_inFlight w _
  | _ => exact Host.Outcome.next.inj e ▸ rfl

/-- A command that has begun is in the block. -/
theorem State.beginCommand_inFlight (s : State) (i : Instr) : (s.beginCommand i).phase.inFlight = 1 := by
  cases i with
  | bound w =>
    by_cases zero : w = 0
    · subst zero; rfl
    · rw [State.beginCommand_bound zero]; rfl
  | _ => rfl

/-- What a transition does at the ports, the registers left out. -/
inductive State.Moves (s : State) : State → Prop where
  /-- Reset drops what is in the block (R201). -/
  | resets (reset : s.pins.rst = true) : Moves s s.resetBlock
  /-- A command leaves the host's list and is in the block (R41, R43). -/
  | accepts {w : CmdWord} {t : State} (noReset : s.pins.rst = false) (idle : s.phase = .idle)
    (port : s.cmdPort = some w) (host : s.popCommand.SameHost t) (inBlock : t.phase.inFlight = 1) : Moves s t
  /-- The block waits, or works on its command: nothing passes a port. -/
  | goesOn {t : State} (noReset : s.pins.rst = false) (unpresented : s.phase = .idle → s.cmdPort = none)
    (host : s.SameHost t) (same : t.phase.inFlight = s.phase.inFlight) : Moves s t
  /-- The host takes the response (R44). -/
  | takes {r : Response} (noReset : s.pins.rst = false) (presented : s.phase = .resp r) : Moves s (s.takeResponse r)

/-- Every transition is one of the four. -/
theorem State.Moves.of_transition (e : s.transition = .next t) : s.Moves t := by
  obtain ⟨reset, rfl⟩ | ⟨noReset, ⟨-, port, rfl⟩ | ⟨w, _, idle, port, -, rfl⟩ | ⟨w, i, idle, port, -, ⟨-, run⟩ | ⟨-, rfl⟩⟩ |
    ⟨i, p, run⟩ | ⟨c, p, rfl⟩ | ⟨w, x, p, rfl⟩ | ⟨r, p, ⟨-, rfl⟩ | ⟨-, rfl⟩⟩⟩ := State.transition_cases e
  · exact .resets reset
  · exact .goesOn noReset (fun _ => port) (.refl _) rfl
  · exact .accepts noReset idle port ⟨rfl, rfl, rfl, rfl, rfl, rfl⟩ rfl
  · exact .accepts noReset idle port (exec_sameHost run) (exec_inFlight run)
  · exact .accepts noReset idle port (s.popCommand.beginCommand_frame i).2.2 (s.popCommand.beginCommand_inFlight i)
  · exact .goesOn noReset (p ▸ nofun) (exec_sameHost run) (p ▸ exec_inFlight run)
  · exact .goesOn noReset (p ▸ nofun) (s.advTransition_frame c).2 (p ▸ s.advTransition_inFlight c)
  · exact .goesOn noReset (p ▸ nofun) (s.boundDraw_frame w x).2 (p ▸ s.boundDraw_inFlight w x)
  · exact .takes noReset p
  · exact .goesOn noReset (p ▸ nofun) (.refl _) rfl

/-- A transition leaves the host's plan alone. -/
theorem State.Moves.schedule (h : s.Moves t) : t.schedule = s.schedule := by
  cases h with
  | resets | takes => rfl
  | accepts _ _ _ host | goesOn _ _ host => exact host.schedule

/-- With an empty plan of the host, a step is what a transition does at the ports. -/
theorem step_moves (noPlan : s.schedule = []) : ∃ t, step s = .next t ∧ s.Moves t := by
  obtain ⟨t, transition⟩ := s.transition_answers
  have moves := State.Moves.of_transition transition
  exact ⟨t, step_of_transition_nil transition (moves.schedule.trans noPlan), moves⟩

/-- `cmd_ready` is `IDLE` without reset (R43, R200). -/
theorem State.cmdReady_iff : s.cmdReady = true ↔ s.phase = .idle ∧ s.pins.rst = false := by
  simp [State.cmdReady, and_comm]

/-- The word presented is the first of the host's list, and what its acceptance leaves is the rest. -/
theorem State.commands_of_cmdPort {w : CmdWord} (port : s.cmdPort = some w) :
    s.commands = w :: s.popCommand.commands := by
  obtain ⟨-, rest, list⟩ := State.cmdPort_eq_some.1 port
  rw [State.popCommand_cons list, list]

/-- While `cmd_ready` is true a presented command is taken whole, and is then in the block (R41). -/
theorem State.Moves.accepted (h : s.Moves t) {w : CmdWord} (ready : s.cmdReady = true) (port : s.cmdPort = some w) :
    s.commands = w :: t.commands ∧ t.phase.inFlight = 1 := by
  obtain ⟨idle, noReset⟩ := State.cmdReady_iff.1 ready
  have list := State.commands_of_cmdPort port
  cases h with
  | resets reset => exact absurd (noReset.symm.trans reset) Bool.false_ne_true
  | accepts _ _ _ host inBlock => exact ⟨host.commands ▸ list, inBlock⟩
  | goesOn _ unpresented => exact absurd ((unpresented idle).symm.trans port) nofun
  | takes _ presented => exact absurd (idle.symm.trans presented) nofun

/-- While `cmd_ready` is false the host's commands stay (R43). -/
theorem State.Moves.commands_of_not_ready (h : s.Moves t) (notReady : s.cmdReady = false) :
    t.commands = s.commands := by
  cases h with
  | resets | takes => rfl
  | accepts noReset idle => exact absurd (State.cmdReady_iff.2 ⟨idle, noReset⟩) (Bool.not_eq_true _ ▸ notReady)
  | goesOn _ _ host => exact host.commands

/-- Without reset a transition conserves the commands: waiting, in the block, or answered (R45). -/
theorem State.Moves.conserves (h : s.Moves t) (noReset : s.pins.rst = false) :
    t.commands.length + t.phase.inFlight + t.taken.length =
      s.commands.length + s.phase.inFlight + s.taken.length := by
  cases h with
  | resets reset => exact absurd (noReset.symm.trans reset) Bool.false_ne_true
  | accepts _ idle port host inBlock =>
    rw [host.commands, host.taken, inBlock, idle, State.commands_of_cmdPort port]
    rfl
  | goesOn _ _ host same => rw [host.commands, host.taken, same]
  | takes _ presented =>
    rw [State.takeResponse_commands, State.takeResponse_phase, State.takeResponse_taken, List.length_append,
      Phase.inFlight_of_resp presented]
    show s.commands.length + 0 + (s.taken.length + 1) = _
    omega

/-- Commands leave at the front of the host's list (R46). -/
theorem State.Moves.commands_append (h : s.Moves t) : ∃ accepted, s.commands = accepted ++ t.commands := by
  cases h with
  | resets | takes => exact ⟨[], rfl⟩
  | accepts _ _ port host => exact ⟨[_], host.commands ▸ State.commands_of_cmdPort port⟩
  | goesOn _ _ host => exact ⟨[], host.commands.symm⟩

/-- Responses join at the back of those taken (R46). -/
theorem State.Moves.taken_append (h : s.Moves t) : ∃ answered, t.taken = s.taken ++ answered := by
  cases h with
  | resets => exact ⟨[], (List.append_nil _).symm⟩
  | accepts _ _ _ host | goesOn _ _ host => exact ⟨[], host.taken.trans (List.append_nil _).symm⟩
  | takes => exact ⟨[_], rfl⟩

/-- The host's next move sets the pins and may change or withdraw the commands (R12, R43). -/
theorem State.hostTurn_cons {m : HostMove} {rest : List HostMove} (plan : s.schedule = m :: rest) :
    s.hostTurn = { s with pins := m.pins, commands := m.commands.getD s.commands, schedule := rest } := by
  simp [State.hostTurn, plan]

end Sys2Proof.Machine
end

section
/-! PROOF of O7, O8, O9: the command port, the response port, and the commands conserved between them (R41 to R45). -/

namespace Sys2Proof.Machine

/-- Settles O7: of what a transition does at the ports, only an acceptance takes from the host's list, and it needs
`cmd_ready`. -/
theorem aCommandWaitsUntilTheBlockIsIdle : Obligations.ACommandWaitsUntilTheBlockIsIdle := by
  refine ⟨fun s => State.cmdReady_iff, fun s notReady => ?waits, fun s w ready port noPlan => ?accepted,
    fun s ready unpresented noPlan => ?nothing⟩
  case waits =>
    obtain ⟨t, transition⟩ := s.transition_answers
    have moves := State.Moves.of_transition transition
    have stay := moves.commands_of_not_ready notReady
    refine ⟨_, step_of_transition transition, fun noPlan => ?_, fun m rest plan => ?_⟩
    · rw [State.hostTurn_nil t (moves.schedule.trans noPlan), stay]
    · rw [State.hostTurn_cons (moves.schedule.trans plan)]
      exact ⟨rfl, congrArg m.commands.getD stay⟩
  case accepted =>
    obtain ⟨t, step, moves⟩ := step_moves noPlan
    obtain ⟨list, inBlock⟩ := moves.accepted ready port
    exact ⟨t, step, list, Phase.inFlight_eq_one_iff.1 inBlock⟩
  case nothing =>
    obtain ⟨idle, noReset⟩ := State.cmdReady_iff.1 ready
    exact step_of_transition_nil (State.transition_idle_none noReset idle unpresented) noPlan

/-- Without reset a response presented is the word on the port (R44, R70). -/
theorem State.rspPort_of_resp {s : State} {r : Response} (noReset : s.pins.rst = false) (p : s.phase = .resp r) :
    s.rspPort = some r.toWord := by
  simp [State.rspPort, p, noReset]

/-- Without reset a word is on the response port exactly in `RESP` (R44). -/
theorem State.rspPort_isSome_iff {s : State} (noReset : s.pins.rst = false) :
    (∃ w, s.rspPort = some w) ↔ ∃ r, s.phase = .resp r := by
  constructor
  · rintro ⟨w, port⟩
    cases p : s.phase with
    | resp r => exact ⟨r, rfl⟩
    | idle | busy => simp [State.rspPort, p] at port
  · rintro ⟨r, p⟩
    exact ⟨_, State.rspPort_of_resp noReset p⟩

/-- A state that a step does not change is never left. -/
theorem run_of_step_self {s : State} (stuck : step s = .next s) (n : Nat) : Sys2Proof.core.run n s = .next s := by
  induction n with
  | zero => exact run_zero
  | succ n ih => exact (run_succ_of_step n stuck).trans ih

/-- Settles O8: in `RESP` the only transitions are the taking and the holding, and the host's turn writes no phase. -/
theorem aResponseWaitsUntilItIsTaken : Obligations.AResponseWaitsUntilItIsTaken := by
  refine ⟨fun s noReset => State.rspPort_isSome_iff noReset, fun s r noReset p => State.rspPort_of_resp noReset p,
    fun s r noReset p noPlan => ⟨fun ready => ?taken, fun notReady => ?stuck⟩, fun s r noReset p notReady => ?held⟩
  case taken => exact step_of_transition_nil (State.transition_taken noReset p ready) noPlan
  case stuck => exact run_of_step_self (step_of_transition_nil (State.transition_held noReset p notReady) noPlan)
  case held => exact ⟨_, step_of_transition (State.transition_held noReset p notReady), s.hostTurn_phase.trans p⟩

/-- Settles O9: what a transition does at the ports conserves the commands, but for a reset. -/
theorem everyAcceptedCommandGetsOneResponse : Obligations.EveryAcceptedCommandGetsOneResponse := by
  refine ⟨fun s noReset noPlan => ?_, fun s reset noPlan => ?_⟩
  · obtain ⟨t, step, moves⟩ := step_moves noPlan
    exact ⟨t, step, moves.conserves noReset, moves.commands_append, moves.taken_append⟩
  · exact ⟨_, step_of_transition_nil (State.transition_rst reset) noPlan, rfl, rfl, rfl⟩

end Sys2Proof.Machine
end

section
/-! PROOF of O48: the idempotent commands (R54). -/

namespace Sys2Proof.Machine

/-- A state with the same host's side differs in the registers and the phase alone. -/
theorem State.SameHost.eq {s t : State} (h : s.SameHost t) :
    t = { s with state := t.state, inc := t.inc, phase := t.phase } := by
  rw [← h.pins, ← h.commands, ← h.schedule, ← h.taken, ← h.grain, ← h.resets]

/-- From a state with the same registers and host's side a command does the same, whatever the phase. -/
theorem exec_congr {s t : State} (i : Instr) (host : s.SameHost t) (regs : t.regs = s.regs) : exec i t = exec i s := by
  obtain ⟨state, inc⟩ := Regs.mk.inj regs
  rw [host.eq, state, inc]
  exact exec_withPhase i s t.phase

/-- A command twice in a row, when the second one does what the first did. -/
theorem execAll_twice {i : Instr} {s t : State} (first : exec i s = .next t) (again : exec i t = exec i s) :
    execAll [i, i] s = exec i s := by
  simp only [execAll, first, again]

/-- `ADV 0` only answers (R139): it makes no iteration. -/
theorem exec_adv_zero (s : State) : exec (.adv 0) s = .next (s.respond .ok 0) := by
  have stays : add64 (mul64 1 s.state) 0 = s.state := by simp [add64, mul64]
  show Host.Outcome.next (State.respond { s with state := add64 (mul64 1 s.state) 0 } .ok 0) = _
  rw [stays]

/-- Settles O48: what writes `inc` reads neither register, and the others write neither, so the second of two finds
everything it reads as the first did. -/
theorem idempotentCommands : Obligations.IdempotentCommands := by
  intro i s idempotent
  obtain ⟨t, run, host⟩ := exec_answers i s
  refine execAll_twice run ?_
  obtain writes | reads := idempotent
  · rw [host.eq, exec_forgets_regs writes { s with phase := t.phase }, exec_withPhase]
  · apply exec_congr i host
    obtain rfl | rfl | rfl | rfl := reads
    · exact Host.Outcome.next.inj run ▸ rfl
    · exact Host.Outcome.next.inj run ▸ rfl
    · exact Host.Outcome.next.inj ((exec_adv_zero s).symm.trans run) ▸ rfl
    · exact Host.Outcome.next.inj run ▸ rfl

end Sys2Proof.Machine
end

section
/-! PROOF of O1: a step at a presented legal command (R41, R43). -/

namespace Sys2Proof.Machine

/-- A table word that names a command decodes to it. -/
theorem decode_of_decodeTableWord {nbits w : Nat} {i : Instr} (h : decodeTableWord nbits w = some i) :
    decode (tableWord nbits w) = .ok i := by
  unfold decodeTableWord at h
  split at h
  · next decoded => rw [decoded, Option.some.inj h]
  · cases h

/-- Settles O1: the step accepts the word and runs it, then the host's turn; with an empty plan that turn is nothing. -/
theorem stepRunsTheCommandAtThePort : Obligations.StepRunsTheCommandAtThePort := by
  refine ⟨fun s w rest i noReset idle valid list grain decoded => ?_, fun s nbits w i t named noPlan run => ?_,
    State.hostTurn_nil, fun s m rest => State.hostTurn_cons⟩
  · obtain ⟨t, run, -⟩ := exec_answers i { s with commands := rest }
    exact ⟨t, run, step_runs noReset idle valid grain list decoded run⟩
  · have runs := step_runs (s := s.withFetchWord nbits w) rfl rfl rfl rfl rfl (decode_of_decodeTableWord named) run
    rwa [State.hostTurn_nil t ((exec_sameHost run).schedule.trans noPlan)] at runs

end Sys2Proof.Machine
end

/-! # Encoding (spec/30_encoding.md) -/

section
/-! SUPPORT. The bits a format uses, field by field, and decoding as an equation of masked words (R62, R63). -/

namespace Sys2Proof

/-- The bits of the field `A` a format uses (R62); `W` is its low half (R61). -/
def Format.maskA : Format → Word64
  | .N => 0
  | .A => BitVec.allOnes 64
  | .AB => BitVec.allOnes 64
  | .W => 0xFFFFFFFF

/-- The bits of the field `B` a format uses (R62). -/
def Format.maskB : Format → Word64
  | .N => 0
  | .A => 0
  | .AB => BitVec.allOnes 64
  | .W => 0

/-- The used bits of a word are `OP` and the used bits of its two operand fields (R60, R62). -/
theorem Format.usedMask_eq (f : Format) : f.usedMask = cmdWord (BitVec.allOnes 8) f.maskA f.maskB := by
  cases f <;> decide

/-- Words made of fields are masked field by field. -/
theorem cmdWord_and (o o' : Byte) (a a' b b' : Word64) :
    cmdWord o a b &&& cmdWord o' a' b' = cmdWord (o &&& o') (a &&& a') (b &&& b') :=
  BitVec.and_append.trans (congrArg (· ++ (b &&& b')) BitVec.and_append)

/-- Words made of fields are equal when their fields are. -/
theorem cmdWord_inj {o o' : Byte} {a a' b b' : Word64} :
    cmdWord o a b = cmdWord o' a' b' ↔ o = o' ∧ a = a' ∧ b = b' := by
  constructor
  · intro h
    exact ⟨by simpa using congrArg opField h, by simpa using congrArg aField h, by simpa using congrArg bField h⟩
  · rintro ⟨rfl, rfl, rfl⟩
    rfl

/-- A word masked to the bits a format uses, as its fields. -/
theorem and_usedMask (w : CmdWord) (f : Format) :
    w &&& f.usedMask = cmdWord (opField w) (aField w &&& f.maskA) (bField w &&& f.maskB) := by
  calc w &&& f.usedMask
      = cmdWord (opField w) (aField w) (bField w) &&& cmdWord (BitVec.allOnes 8) f.maskA f.maskB := by
        rw [cmdWord_fields, f.usedMask_eq]
    _ = _ := by rw [cmdWord_and, BitVec.and_allOnes]

/-- The low half of a 64-bit field is its truncation (R61). -/
theorem and_lowHalf (a : Word64) : a &&& 0xFFFFFFFF = (a.setWidth 32).setWidth 64 := by
  apply BitVec.eq_of_toNat_eq
  have mask : (0xFFFFFFFF : Word64).toNat = 2 ^ 32 - 1 := rfl
  rw [BitVec.toNat_and, mask, Nat.and_two_pow_sub_one_eq_mod, BitVec.toNat_setWidth_of_le (by omega),
    BitVec.toNat_setWidth]

/-- Zero-extension loses nothing of a bound `W`. -/
theorem setWidth_64_inj {v v' : Word32} : v.setWidth 64 = v'.setWidth 64 ↔ v = v' := by
  constructor
  · intro h
    simpa [BitVec.setWidth_setWidth_of_le] using congrArg (BitVec.setWidth 32) h
  · exact congrArg _

/-- A command is built from two fields when their used bits are its own fields (R62, R63). -/
theorem eq_build_iff (i : Instr) (a b : Word64) :
    i = i.mnemonic.build a b (a.setWidth 32) ↔
      a &&& i.mnemonic.format.maskA = i.fieldA ∧ b &&& i.mnemonic.format.maskB = i.fieldB := by
  cases i with
  | bound v =>
    show Instr.bound v = .bound (a.setWidth 32) ↔ a &&& 0xFFFFFFFF = v.setWidth 64 ∧ b &&& 0 = 0
    rw [and_lowHalf, setWidth_64_inj, Instr.bound.injEq]
    simp [eq_comm]
  | load | seeds | seed | adv =>
    simp [-BitVec.reduceAllOnes, Instr.mnemonic, Mnemonic.build, Mnemonic.format, Format.maskA, Format.maskB,
      Instr.fieldA, Instr.fieldB, eq_comm]
  | step | next | int63 | rdstate | rdinc =>
    simp [Instr.mnemonic, Mnemonic.build, Mnemonic.format, Format.maskA, Format.maskB, Instr.fieldA, Instr.fieldB]

/-- A word decodes to a command exactly when its used bits are the canonical word (R62, R63, R65). -/
theorem decode_eq_ok_iff_and_usedMask (w : CmdWord) (i : Instr) :
    decode w = .ok i ↔ w &&& i.mnemonic.format.usedMask = encode i := by
  rw [decode_eq_ok_iff, wField_eq, eq_build_iff, and_usedMask, encode, cmdWord_inj]

/-- A command is built from its own fields (R62, R64). -/
theorem eq_build_fields (i : Instr) : i = i.mnemonic.build i.fieldA i.fieldB (i.fieldA.setWidth 32) := by
  cases i with
  | bound v => exact congrArg Instr.bound (by simp [Instr.fieldA, BitVec.setWidth_setWidth_of_le])
  | _ => rfl

/-- A canonical word has nothing outside the used bits (R63). -/
theorem encode_and_usedMask (i : Instr) : encode i &&& i.mnemonic.format.usedMask = encode i := by
  obtain ⟨usedA, usedB⟩ := (eq_build_iff i i.fieldA i.fieldB).1 (eq_build_fields i)
  rw [and_usedMask, opField_encode, aField_encode, bField_encode, usedA, usedB, encode]

/-- No bit is outside a mask exactly when masking keeps the word. -/
theorem and_not_eq_zero_iff {n : Nat} (w m : BitVec n) : w &&& ~~~m = 0 ↔ w &&& m = w := by
  have outside : w &&& ~~~m = w ^^^ (w &&& m) := by
    ext k
    simp only [BitVec.getElem_and, BitVec.getElem_not, BitVec.getElem_xor]
    cases w[k] <;> simp
  rw [outside]
  exact BitVec.xor_eq_zero_iff.trans eq_comm

/-- A legal word is canonical exactly when it is its command's canonical word (R63). -/
theorem isCanonical_iff {w : CmdWord} {i : Instr} (h : decode w = .ok i) : isCanonical w = true ↔ encode i = w := by
  simp [isCanonical, canonicalWord, h]

/-- A legal word is canonical exactly when its ignored bits are zero (R63). -/
theorem isCanonical_iff_ignored_eq_zero {w : CmdWord} {i : Instr} (h : decode w = .ok i) :
    isCanonical w = true ↔ w &&& ~~~i.mnemonic.format.usedMask = 0 := by
  rw [isCanonical_iff h, and_not_eq_zero_iff, (decode_eq_ok_iff_and_usedMask w i).1 h]

end Sys2Proof
end

section
/-! PROOF of O52, O54, O55: decoding the canonical word, the used and the ignored bits, the words of R76. -/

namespace Sys2Proof

/-- Settles O52: the used bits of a canonical word are all of it. -/
theorem decodeOfEncodeIsTheCommand : Obligations.DecodeOfEncodeIsTheCommand := fun i =>
  (decode_eq_ok_iff_and_usedMask _ i).2 (encode_and_usedMask i)

/-- A canonical word decodes to its command. -/
theorem decode_of_eq_encode {w : CmdWord} {i : Instr} (h : w = encode i) : decode w = .ok i :=
  h ▸ decodeOfEncodeIsTheCommand i

/-- Settles O54: a word and its command's canonical word have the same used bits, which decide the command. -/
theorem decodeReadsExactlyTheUsedBits : Obligations.DecodeReadsExactlyTheUsedBits := by
  intro w i decoded
  have used := (decode_eq_ok_iff_and_usedMask w i).1 decoded
  refine ⟨used.symm, fun w' => ?_, isCanonical_iff_ignored_eq_zero decoded⟩
  rw [decode_eq_ok_iff_and_usedMask, used]

/-- Settles O55: each word is the canonical word of its command. -/
theorem theTenExampleWordsDecode : Obligations.TheTenExampleWordsDecode := by
  refine ⟨?_, ?_, ?_, ?_, ?_, ?_, ?_, ?_, ?_, ?_⟩ <;> exact decode_of_eq_encode (by decide)

end Sys2Proof
end

section
/-! PROOF of O53: the opcode map by mask and match (R65, R66, R67). -/

namespace Sys2Proof

/-- Every row masks `OP` and matches its mnemonic's opcode (R66). -/
theorem opcodeTable_row : ∀ row ∈ opcodeTable,
    row.mask = Format.N.usedMask ∧ row.pattern = cmdWord row.mnemonic.opcode 0 0 := by decide

/-- Every mnemonic has a row (R66). -/
theorem opcodeTable_complete (m : Mnemonic) : ∃ row ∈ opcodeTable, row.mnemonic = m := by cases m <;> decide

/-- A word matches a row exactly when its opcode is the row's. -/
theorem and_mask_eq_pattern_iff {row : OpRow} (mem : row ∈ opcodeTable) (w : CmdWord) :
    w &&& row.mask = row.pattern ↔ opField w = row.mnemonic.opcode := by
  obtain ⟨mask, pattern⟩ := opcodeTable_row row mem
  rw [mask, pattern, and_usedMask, cmdWord_inj]
  simp [Format.maskA, Format.maskB]

/-- Which command a word is, its opcode alone decides (R65). -/
theorem decode_mnemonic_iff (w : CmdWord) (m : Mnemonic) :
    (∃ i, decode w = .ok i ∧ i.mnemonic = m) ↔ opField w = m.opcode := by
  constructor
  · rintro ⟨i, decoded, rfl⟩
    exact ((decode_eq_ok_iff w i).1 decoded).1
  · intro op
    refine ⟨m.build (aField w) (bField w) (wField w), ?_, build_mnemonic ..⟩
    rw [decode_eq_ok_iff, build_mnemonic]
    exact ⟨op, rfl⟩

/-- Settles O53: both sides of a row ask for its opcode, and every command has a row. -/
theorem decodeFollowsTheOpcodeMap : Obligations.DecodeFollowsTheOpcodeMap := by
  have row_iff : ∀ (w : CmdWord) (row : OpRow), row ∈ opcodeTable →
      ((∃ i, decode w = .ok i ∧ i.mnemonic = row.mnemonic) ↔ w &&& row.mask = row.pattern) := fun w row mem =>
    (decode_mnemonic_iff w row.mnemonic).trans (and_mask_eq_pattern_iff mem w).symm
  refine ⟨row_iff, fun w => ⟨?_, fun noRow => ?_⟩⟩
  · rintro ⟨e, illegal⟩ row mem matched
    obtain ⟨i, decoded, -⟩ := (row_iff w row mem).2 matched
    exact nomatch illegal.symm.trans decoded
  · cases decoded : decode w with
    | error e => exact ⟨e, rfl⟩
    | ok i =>
      obtain ⟨row, mem, same⟩ := opcodeTable_complete i.mnemonic
      exact absurd ((row_iff w row mem).1 ⟨i, decoded, same.symm⟩) (noRow row mem)

end Sys2Proof
end

section
/-! PROOF of O56: the response word (R70, R71). -/

namespace Sys2Proof.Machine

/-- A status is the one its code stands for (R71). -/
@[simp] theorem Status.ofCode_code (st : Status) : Status.ofCode st.code = some st := by cases st <;> rfl

/-- A code stands for one status only (R71). -/
theorem Status.code_of_ofCode {b : Byte} {st : Status} (h : Status.ofCode b = some st) : st.code = b := by
  unfold Status.ofCode at h
  apply BitVec.eq_of_toNat_eq
  split at h
  · next code => exact Option.some.inj h ▸ code.symm
  · next code => exact Option.some.inj h ▸ code.symm
  · next code => exact Option.some.inj h ▸ code.symm
  · cases h

/-- The codes 0x03 to 0xFF stand for no status (R71). -/
theorem Status.ofCode_eq_none {b : Byte} (h : 3 ≤ b.toNat) : Status.ofCode b = none := by
  cases named : Status.ofCode b with
  | none => rfl
  | some st =>
    have small : st.code.toNat < 3 := by cases st <;> decide
    rw [Status.code_of_ofCode named] at small
    omega

/-- The status field of a response's word (R70). -/
@[simp] theorem Response.toWord_status (r : Response) : r.toWord.extractLsb' 64 8 = r.status.code :=
  BitVec.extractLsb'_append_eq_left

/-- The data field of a response's word (R70). -/
@[simp] theorem Response.toWord_data (r : Response) : r.toWord.extractLsb' 0 64 = r.data :=
  BitVec.extractLsb'_append_eq_right

/-- A word stands for a response exactly when its two fields are the response's (R70). -/
theorem Response.ofWord_eq_some_iff {w : RspWord} {r : Response} :
    Response.ofWord w = some r ↔ Status.ofCode (w.extractLsb' 64 8) = some r.status ∧ w.extractLsb' 0 64 = r.data := by
  obtain ⟨st, d⟩ := r
  simp [Response.ofWord]

/-- Settles O56: the word is its two fields, and the codes name the three statuses only. -/
theorem responseWordCarriesStatusAndData : Obligations.ResponseWordCarriesStatusAndData := by
  refine ⟨fun r => ⟨r.toWord_status, r.toWord_data, ?_⟩, fun w r h => ?_, fun w reserved => ?_, rfl, rfl, rfl⟩
  · rw [Response.ofWord_eq_some_iff, r.toWord_status, r.toWord_data]
    exact ⟨Status.ofCode_code _, rfl⟩
  · obtain ⟨status, data⟩ := Response.ofWord_eq_some_iff.1 h
    rw [Response.toWord, Status.code_of_ofCode status, ← data]
    exact (BitVec.extractLsb'_append_extractLsb'_eq_extractLsb' (start₁ := 0) (len₁ := 64) rfl).trans
      BitVec.extractLsb'_eq_self
  · rw [Response.ofWord, Status.ofCode_eq_none reserved, Option.map_none]

end Sys2Proof.Machine
end

section
/-! PROOF of O57: the data field of a command's response (R72). -/

namespace Sys2Proof.Machine

/-- A command that ends in `respond` answers that data. -/
theorem data_of_exec_responds {i : Instr} {s t u : State} {st : Status} {d : Word64} {r : Response}
    (ends : exec i s = .next (u.respond st d)) (e : exec i s = .next t) (p : t.phase = .resp r) : r.data = d := by
  obtain rfl := Host.Outcome.next.inj (ends.symm.trans e)
  exact congrArg Response.data (Phase.resp.inj p).symm

/-- The data of `INT63` has 63 bits (R116). -/
theorem int63Data_bit63 (hi lo : Word32) : (int63Data hi lo).getLsbD 63 = false := by
  rw [int63Data, BitVec.getLsbD_and]
  exact Bool.and_false _

/-- Whatever `BOUND` answers, error or sample, has 32 bits (R72, R154). -/
theorem exec_bound_data_lt {w : Word32} {s t : State} {r : Response} (e : exec (.bound w) s = .next t)
    (p : t.phase = .resp r) : r.data.toNat < 2 ^ 32 := by
  by_cases zero : w = 0
  · subst zero
    rw [data_of_exec_responds rfl e p]
    decide
  · have draw := execBound_pos zero s
    obtain ⟨-, accepted⟩ | ⟨-, rejected⟩ := s.boundDraw_cases w (boundThreshold w)
    · rw [accepted] at draw
      rw [data_of_exec_responds draw e p, zext64, BitVec.toNat_setWidth_of_le (by omega)]
      exact BitVec.isLt _
    · rw [rejected] at draw
      obtain rfl := Host.Outcome.next.inj (draw.symm.trans e)
      cases p

/-- Settles O57: an answered response is well formed, and each command's last action is the `respond` with its data. -/
theorem dataFieldOfEveryResponse : Obligations.DataFieldOfEveryResponse := by
  intro i s t r e p
  have wf : r.Wf := (congrArg (Phase.Wf t.inc) p).mp (exec_wf e)
  refine ⟨wf, fun _ => ⟨?next, ?bound, ?int63, ?rdstate, ?rdinc, ?others⟩⟩
  case next => rintro rfl; exact data_of_exec_responds rfl e p
  case bound => rintro w rfl; exact exec_bound_data_lt e p
  case int63 => rintro rfl; rw [data_of_exec_responds rfl e p]; exact int63Data_bit63 _ _
  case rdstate => rintro rfl; exact data_of_exec_responds rfl e p
  case rdinc => rintro rfl; exact data_of_exec_responds rfl e p
  case others =>
    rintro (rfl | ⟨a, rfl⟩ | writes)
    · exact data_of_exec_responds rfl e p
    · exact data_of_exec_responds rfl e p
    · cases i with
      | load | seeds | seed => exact data_of_exec_responds rfl e p
      | _ => cases writes

end Sys2Proof.Machine
end

section
/-! PROOF of O58, O59: the assembler and the disassembler (R73 to R78). -/

namespace Sys2Proof.Machine

/-- Every word is in the range of a 64-bit field (R74). -/
@[simp] theorem fits64_toNat (a : Word64) : fits64 a.toNat = true := by
  have := a.isLt
  simp only [fits64, Bool.and_eq_true, decide_eq_true_iff]
  omega

/-- Every word is in the range of the field `W` (R74). -/
@[simp] theorem fits32_toNat (w : Word32) : fits32 w.toNat = true := by
  have := w.isLt
  simp only [fits32, Bool.and_eq_true, decide_eq_true_iff]
  omega

/-- A well-formed line assembles to the command of its mnemonic and operands (R74). -/
theorem assemble_of_wellFormed {l : AsmLine} (h : l.wellFormed = true) :
    assemble l = some (l.mnemonic.build (BitVec.ofInt 64 (l.operands.getD 0 0)) (BitVec.ofInt 64 (l.operands.getD 1 0))
      (BitVec.ofInt 32 (l.operands.getD 0 0))) :=
  if_pos h

/-- A command's own line is well formed. -/
theorem lineOf_wellFormed (i : Instr) : (lineOf i).wellFormed = true := by
  cases i with
  | load | seeds | seed | adv | bound =>
    simp [lineOf, AsmLine.wellFormed, Mnemonic.format, Format.arity, Format.fits]
  | _ => rfl

/-- Every command is assembled from its own line (R74, R78). -/
theorem assemble_lineOf (i : Instr) : assemble (lineOf i) = some i := by
  rw [assemble_of_wellFormed (lineOf_wellFormed i)]
  cases i with
  | load | seeds | seed | adv | bound => simp [lineOf, Mnemonic.build, BitVec.ofInt_natCast]
  | _ => rfl

/-- `ADV -n` is the jump by `2^64 - n` (R74). -/
theorem assemble_adv_neg {n : Nat} (pos : 1 ≤ n) (le : n ≤ 2 ^ 63) :
    assemble { mnemonic := .ADV, operands := [-(n : Int)] } = some (.adv (BitVec.ofNat 64 (2 ^ 64 - n))) := by
  have fits : fits64 (-(n : Int)) = true := by
    simp only [fits64, Bool.and_eq_true, decide_eq_true_iff]
    omega
  have wrapped : BitVec.ofInt 64 (-(n : Int)) = BitVec.ofNat 64 (2 ^ 64 - n) := by
    apply BitVec.eq_of_toNat_eq
    rw [BitVec.toNat_ofInt, BitVec.toNat_ofNat]
    omega
  rw [assemble_of_wellFormed (by simp [AsmLine.wellFormed, Mnemonic.format, Format.arity, Format.fits, fits]), ← wrapped]
  rfl

/-- Settles O58: the check of a line is the assembler's only one. -/
theorem assemblerTakesExactlyTheWellFormedLines : Obligations.AssemblerTakesExactlyTheWellFormedLines :=
  ⟨fun _ h => ⟨_, assemble_of_wellFormed h, build_mnemonic ..⟩, fun _ h => if_neg (Bool.not_eq_true _ ▸ h),
    assemble_lineOf, fun _ => assemble_adv_neg⟩

/-- Settles O59: a legal word is listed by its command's own line, and by the whole word unless it is canonical. -/
theorem disassemblyNamesTheCommandAndTheIgnoredBits : Obligations.DisassemblyNamesTheCommandAndTheIgnoredBits := by
  refine ⟨fun w i decoded => ?legal, fun w e illegal => by simp only [disassemble, illegal]⟩
  refine ⟨lineOf i, if isCanonical w then none else some w, by simp only [disassemble, decoded], assemble_lineOf i, ?_⟩
  rw [← isCanonical_iff_ignored_eq_zero decoded]
  cases isCanonical w with
  | true => exact ⟨⟨fun _ => rfl, fun _ => rfl⟩, fun h => absurd rfl h⟩
  | false => exact ⟨⟨nofun, nofun⟩, fun _ => rfl⟩

end Sys2Proof.Machine
end

/-! # Construction and seeding (spec/40_seed_load.md) -/

section
/-! PROOF of O16, O17: the net effect of seeding (R91, R92). -/

namespace Sys2Proof.Machine

/-- Seeding with an odd increment, answered: the state is primed, and besides the phase nothing else has changed (R91). -/
theorem State.prime_respond (s : State) (a : Word64) {i : Word64} (odd : i ||| 1 = i) :
    (s.prime a i).respond .ok 0 =
      { s with state := mult * (i + a) + i, inc := i, phase := .resp { status := .ok, data := 0 } } := by
  rw [← s.prime_state a odd]
  rfl

/-- Settles O16: seeding with the odd increment `2 * b + 1`, which is what `shl64(B, 1) | 1` is. -/
theorem seedsLeavesThePrimedState : Obligations.SeedsLeavesThePrimedState := by
  intro a b s
  rw [← shl64_one_or_one]
  exact congrArg Host.Outcome.next (s.prime_respond a (or_one_or_one (shl64 b 1)))

/-- Settles O17: seeding with the increment 1, which is also the increment of sequence 0. -/
theorem seedIsSeedsWithSequenceZero : Obligations.SeedIsSeedsWithSequenceZero := fun a s =>
  ⟨congrArg Host.Outcome.next (s.prime_respond a rfl), rfl⟩

end Sys2Proof.Machine
end

section
/-! PROOF of O19: `inc` after each command (R23, R95). -/

namespace Sys2Proof.Machine

/-- Settles O19: `SEEDS` writes a word with bit 0 set, `SEED` writes 1, `LOAD` writes `B`, the others keep `inc`. -/
theorem incIsWrittenByThreeCommandsOnly : Obligations.IncIsWrittenByThreeCommandsOnly := by
  refine ⟨fun a b s => ⟨_, rfl, ?seeds⟩, fun a s => ⟨_, rfl, ?seed⟩, fun a b s => ⟨_, rfl, rfl⟩, fun i s keeps => ?others⟩
  case seeds =>
    show (shl64 b 1 ||| 1).getLsbD 0 = true
    simp
  case seed =>
    show (1 : Word64).getLsbD 0 = true
    rfl
  case others =>
    obtain ⟨t, run, inc, -⟩ := exec_keeps_inc keeps s
    exact ⟨t, run, inc⟩

end Sys2Proof.Machine
end

section
/-! PROOF of O15: `LOAD` stores both words verbatim, and the steps after it do not see bit 0 of `inc` (R90). -/

namespace Sys2Proof.Machine

/-- The first command of a list answers, and the rest run from its answer. -/
theorem execAll_cons {i : Instr} {s t : State} (run : exec i s = .next t) (is : List Instr) :
    execAll (i :: is) s = execAll is t := by
  rw [execAll, run]

/-- Any list of commands keeps two states alike that differ in bit 0 of `inc` at most (R24). -/
theorem State.SameUpToIncBit.execAll {s s' : State} (h : s.SameUpToIncBit s') (is : List Instr) :
    ∃ t t', Machine.execAll is s = .next t ∧ Machine.execAll is s' = .next t' ∧ t.SameUpToIncBit t' := by
  induction is generalizing s s' with
  | nil => exact ⟨s, s', rfl, rfl, h⟩
  | cons i is ih =>
    obtain ⟨t, t', run, run', same⟩ := h.exec i
    rw [execAll_cons run, execAll_cons run']
    exact ih same

/-- Setting bit 0 of `inc` makes such a pair of states (R23). -/
theorem State.sameUpToIncBit_setReg_inc (s : State) : s.SameUpToIncBit (s.setReg .inc (s.inc ||| 1)) where
  state := rfl
  inc := or_one_or_one s.inc
  phase := .inl rfl
  taken := List.forall₂_same.2 fun _ _ => ⟨rfl, rfl⟩
  pins := rfl
  commands := rfl
  schedule := rfl
  grain := rfl
  resets := rfl

/-- `LOAD` leaves the two words it was given (R90). -/
theorem exec_load (a b : Word64) (s : State) :
    exec (.load a b) s =
      .next { s with state := a, inc := b, phase := .resp { status := .ok, data := 0 } } :=
  rfl

/-- Settles O15: `LOAD` writes the words as they are, and readback answers them; what `LOAD A, B` and `LOAD A, B|1` leave
differs in bit 0 of `inc` alone, and any steps keep the two runs alike. -/
theorem loadStoresBothWordsVerbatim : Obligations.LoadStoresBothWordsVerbatim := by
  refine ⟨exec_load, fun a b s => execAll_cons (exec_load a b s) _, fun a b s => execAll_cons (exec_load a b s) _,
    fun a b n s => ?steps⟩
  rw [execAll_cons (exec_load a b s), execAll_cons (exec_load a (b ||| 1) s)]
  obtain ⟨t, u, run, run', same⟩ := (State.sameUpToIncBit_setReg_inc _).execAll (List.replicate n .step)
  exact ⟨t, u, run, run', same.state.symm⟩

end Sys2Proof.Machine
end

/-! # The LCG step (spec/41_lcg_step.md) -/

section
/-! SUPPORT. `STEP`, `NEXT` and `ADV` as counts of `Step()`, and the increment as arithmetic uses it (R100, R101, R114, R136). -/

namespace Sys2Proof.Machine

/-- `STEP` is one `Step()`, answered with data 0 (R101). -/
theorem exec_step (s : State) :
    exec .step s = .next { s with state := lcg s.inc s.state, phase := .resp { status := .ok, data := 0 } } :=
  rfl

/-- `NEXT` is one `Step()`, answered with the output of the old state (R114). -/
theorem exec_next (s : State) :
    exec .next s =
      .next { s with state := lcg s.inc s.state, phase := .resp { status := .ok, data := zext64 (xshRr s.state) } } :=
  rfl

/-- `ADV A` is `A` times `Step()`, answered with data 0 (R136). -/
theorem exec_adv (a : Word64) (s : State) :
    exec (.adv a) s =
      .next { s with state := stepsOn s.inc a.toNat s.state, phase := .resp { status := .ok, data := 0 } } := by
  rw [← advLoop_isSteps s.inc a s.state]
  rfl

/-- Commands `STEP` one after another, at least one of them: the steps add up, and the last response stands (R101). -/
theorem execAll_replicate_step (n : Nat) (s : State) :
    execAll (List.replicate (n + 1) .step) s =
      .next { s with state := stepsOn s.inc (n + 1) s.state, phase := .resp { status := .ok, data := 0 } } := by
  rw [List.replicate_succ, execAll_cons (exec_step s)]
  induction n generalizing s with
  | zero => rfl
  | succ n ih =>
    rw [List.replicate_succ, execAll_cons (exec_step _), ih, stepsOn_succ s.inc (n + 1)]

/-- The increment with bit 0 set is an odd word (R100). -/
theorem or_one_eq_two_mul_add_one (x : Word64) : x ||| 1 = 2 * shr64 x 1 + 1 := by
  rw [← shl64_one_or_one, shl64, shr64]
  ext i inside
  cases i with
  | zero => simp
  | succ i => simp [Nat.add_comm 1, BitVec.getLsbD_eq_getElem inside]

/-- Bit 0 of the increment does not count (R103). -/
theorem xor_one_or_one (x : Word64) : x ^^^ 1 ||| 1 = x ||| 1 := by
  ext i
  cases i <;> simp

/-- `MULT` is invertible modulo 2^64 (R103). -/
theorem mult_mul_inverse : mult * 0xC097EF87329E28A5 = 1 := by decide

end Sys2Proof.Machine
end

section
/-! PROOF of O25: the exact period (R104). Squaring the step map over and over, the pair for `2^k` steps keeps a multiplier
that is 1 modulo `2^(k + 2)` (`MULT mod 4 = 1`) and a constant that is an odd multiple of `2^k` (`inc | 1` is odd). -/

namespace Sys2Proof.Machine

/-- The pair of `2^k` steps, in the form that doubling keeps (R135). -/
theorem isSteps_two_pow (inc : Word64) (k : Nat) :
    ∃ u v, IsSteps inc (2 ^ (k + 2) * u + 1) (2 ^ k * (2 * v + 1)) (2 ^ k) := by
  induction k with
  | zero =>
    have multiplier : 2 ^ (0 + 2) * shr64 mult 2 + 1 = mult := by decide
    refine ⟨shr64 mult 2, shr64 inc 1, ?_⟩
    rw [multiplier, ← or_one_eq_two_mul_add_one, pow_zero, one_mul]
    exact isSteps_one inc
  | succ k ih =>
    obtain ⟨u, v, half⟩ := ih
    refine ⟨2 ^ (k + 1) * u ^ 2 + u, 2 ^ (k + 1) * u * v + 2 ^ k * u + v, ?_⟩
    convert half.comp half using 1
    · simp only [mul64]; ring
    · simp only [mul64, add64]; ring
    · ring

/-- Half the period adds 2^63, the top bit, to every word (R139). -/
theorem stepsOn_two_pow_63 (inc x : Word64) : stepsOn inc (2 ^ 63) x = x + 0x8000000000000000 := by
  obtain ⟨u, v, half⟩ := isSteps_two_pow inc 63
  have top : (2 : Word64) ^ 63 = 0x8000000000000000 := by norm_num
  have overflow : (0x8000000000000000 : Word64) * 2 = 0 := by decide
  calc stepsOn inc (2 ^ 63) x = (2 ^ (63 + 2) * u + 1) * x + 2 ^ 63 * (2 * v + 1) := (half x).symm
    _ = x + 2 ^ 63 + 2 ^ 63 * 2 * (2 * u * x + v) := by ring
    _ = x + 0x8000000000000000 := by rw [top, overflow, zero_mul, add_zero]

/-- The whole period is the identity. -/
theorem stepsOn_two_pow_64 (inc x : Word64) : stepsOn inc (2 ^ 64) x = x := by
  have wraps : (0x8000000000000000 : Word64) + 0x8000000000000000 = 0 := by decide
  have twice : 2 ^ 64 = 2 ^ 63 + 2 ^ 63 := by decide
  rw [twice, stepsOn_add, stepsOn_two_pow_63, stepsOn_two_pow_63, add_assoc, wraps, add_zero]

/-- Settles O25: `2^64` steps are the identity and `2^63` steps move every word, so the least period is `2^64`. -/
theorem stepSequencesHavePeriodTwoPow64 : Obligations.StepSequencesHavePeriodTwoPow64 := by
  intro inc x n
  have moves : ¬ (lcg inc).IsPeriodicPt (2 ^ 63) x := fun fixed =>
    absurd (add_eq_left.1 ((stepsOn_two_pow_63 inc x).symm.trans fixed)) (by decide)
  have period : (lcg inc).minimalPeriod x = 2 ^ 64 :=
    Function.minimalPeriod_eq_prime_pow moves (stepsOn_two_pow_64 inc x)
  rw [← period]
  exact Function.isPeriodicPt_iff_minimalPeriod_dvd

end Sys2Proof.Machine
end

section
/-! PROOF of O36: `STEP` commands against `ADV` (R105). -/

namespace Sys2Proof.Machine

/-- Settles O36: both sides are `n` times `Step()`; only with no `STEP` at all is there no response. -/
theorem stepsAndAdvAgree : Obligations.StepsAndAdvAgree := by
  intro n s bound
  have count : (BitVec.ofNat 64 n).toNat = n := by rw [BitVec.toNat_ofNat, Nat.mod_eq_of_lt bound]
  have jump := exec_adv (BitVec.ofNat 64 n) s
  rw [count] at jump
  cases n with
  | zero => exact ⟨_, _, rfl, jump, rfl, rfl, rfl, nofun⟩
  | succ n => exact ⟨_, _, execAll_replicate_step n s, jump, rfl, rfl, rfl, fun _ => rfl⟩

end Sys2Proof.Machine
end

section
/-! PROOF of O24, O23: the laws of `Step()` and the two commands that make one step (R100, R101, R103). -/

namespace Sys2Proof.Machine

/-- `Step()` is a bijection of the words: multiplication by a unit, then a translation (R103). -/
theorem lcg_bijective (inc : Word64) : Function.Bijective (lcg inc) :=
  have unit : IsUnit mult := .of_mul_eq_one _ mult_mul_inverse
  (Equiv.addRight (inc ||| 1)).bijective.comp (IsUnit.isUnit_iff_mulLeft_bijective.1 unit)

/-- Settles O24: the bijection, and three facts about the two constants of the step. -/
theorem lcgStepIsABijection : Obligations.LcgStepIsABijection :=
  ⟨lcg_bijective, fun inc => lcg_congr (xor_one_or_one inc), fun inc => by rw [lcg_eq, mul_zero, zero_add],
    mult_mul_inverse⟩

/-- Settles O23: `STEP` and `NEXT` leave the same word, `Step()` of the old one. -/
theorem stepMultipliesAndAdds : Obligations.StepMultipliesAndAdds := fun s =>
  ⟨exec_step s, _, exec_next s, lcg_eq s.inc s.state⟩

end Sys2Proof.Machine
end

/-! # The output permutation (spec/42_output_xsh_rr.md) -/

section
/-! PROOF of O26: the masked-shift formula is the rotate (R112). -/

namespace Sys2Proof.Machine

/-- The masked left distance is `(32 - r) mod 32` (R112). -/
theorem neg_and_31_toNat {r : Word32} (small : r.toNat < 32) : (-r &&& 31).toNat = (32 - r.toNat) % 32 := by
  have mask : (31 : Word32).toNat = 2 ^ 5 - 1 := rfl
  rw [BitVec.toNat_and, mask, Nat.and_two_pow_sub_one_eq_mod, BitVec.toNat_neg]
  omega

/-- Rotating right by `r` moves bit `(j + r) mod 32` to `j` (R112): below `32 - r` the bit comes from the right shift, from
there on out of the left shift. -/
theorem ror32_getLsbD (v : Word32) {r : Word32} (small : r.toNat < 32) {j : Nat} (inside : j < 32) :
    (ror32 v r).getLsbD j = v.getLsbD ((j + r.toNat) % 32) := by
  rw [ror32, shr32, shl32, neg32, neg_and_31_toNat small, BitVec.getLsbD_or, BitVec.getLsbD_ushiftRight,
    BitVec.getLsbD_shiftLeft]
  obtain zero | pos := Nat.eq_zero_or_pos r.toNat
  · simp [zero, inside, Nat.mod_eq_of_lt inside]
  · rw [Nat.mod_eq_of_lt (show 32 - r.toNat < 32 by omega)]
    by_cases low : j + r.toNat < 32
    · have before : j < 32 - r.toNat := by omega
      simp [before, Nat.mod_eq_of_lt low, Nat.add_comm r.toNat]
    · have after : ¬ j < 32 - r.toNat := by omega
      have source : (j + r.toNat) % 32 = j - (32 - r.toNat) := by omega
      have outside : v.getLsbD (r.toNat + j) = false := BitVec.getLsbD_of_ge _ _ (by omega)
      simp [inside, after, source, outside]

/-- Rotating by 0 changes nothing (R112). -/
theorem ror32_zero (v : Word32) : ror32 v 0 = v := by
  apply BitVec.eq_of_getLsbD_eq
  intro j inside
  rw [ror32_getLsbD v (by decide) inside]
  exact congrArg v.getLsbD (Nat.mod_eq_of_lt inside)

/-- Settles O26: the formula is the definition; its distance, its bits and the distance 0 are the lemmas above. -/
theorem rotateRightMovesBitJPlusRToJ : Obligations.RotateRightMovesBitJPlusRToJ :=
  ⟨fun _ _ => rfl, fun _ => neg_and_31_toNat, fun v _ small _ => ror32_getLsbD v small, ror32_zero⟩

end Sys2Proof.Machine
end

section
/-! PROOF of O27: the output bit by bit (R111). -/

namespace Sys2Proof.Machine

/-- Every bit of `xorshifted` is the xor of two bits of the state; beyond bit 63 the second one is 0 (R111). -/
theorem xorshifted_getLsbD (x : Word64) {j : Nat} (inside : j < 32) :
    (xorshifted x).getLsbD j = (x.getLsbD (j + 27) ^^ x.getLsbD (j + 45)) := by
  simp only [xorshifted, trunc32, shr64, BitVec.getLsbD_setWidth, BitVec.getLsbD_ushiftRight, BitVec.getLsbD_xor,
    inside, decide_true, Bool.true_and]
  rw [Bool.xor_comm, Nat.add_comm 27 j, show 18 + (j + 27) = j + 45 by omega]

/-- From bit 19 of `xorshifted` on there is no second bit, and the state's bit stands alone (R111). -/
theorem xorshifted_getLsbD_ite (x : Word64) {j : Nat} (inside : j < 32) :
    (xorshifted x).getLsbD j =
      if j ≤ 18 then (x.getLsbD (j + 27) ^^ x.getLsbD (j + 45)) else x.getLsbD (j + 27) := by
  rw [xorshifted_getLsbD x inside]
  split
  · rfl
  · rw [BitVec.getLsbD_of_ge x (j + 45) (by omega), Bool.xor_false]

/-- The rotate amount is the top five bits of the state (R110). -/
theorem rotAmount_toNat (x : Word64) : (rotAmount x).toNat = x.toNat / 2 ^ 59 := by
  rw [rotAmount, trunc32, shr64, BitVec.toNat_setWidth, BitVec.toNat_ushiftRight, Nat.shiftRight_eq_div_pow]
  omega

/-- So it is a distance for which the masked shifts are the rotate (R112). -/
theorem rotAmount_lt (x : Word64) : (rotAmount x).toNat < 32 := by
  rw [rotAmount_toNat]
  omega

/-- Settles O27: the bits of `xorshifted`, and those bits rotated. -/
theorem xshRrBitByBit : Obligations.XshRrBitByBit := by
  refine ⟨fun x _ => xorshifted_getLsbD_ite x, fun x j inside => ?_⟩
  rw [xshRr, ror32_getLsbD _ (rotAmount_lt x) inside, xorshifted_getLsbD_ite x (Nat.mod_lt _ (by decide)),
    rotAmount_toNat]

end Sys2Proof.Machine
end

section
/-! PROOF of O28: the outputs are equidistributed (R115). The output together with the bits it leaves free, the top five and
the low 27, determines the state; so these 64 bits are a permutation of the state, and an output fixes 32 of them. -/

namespace Sys2Proof.Machine

/-- The bits of the state that an output leaves free: `s[63:59]` and `s[26:0]` (R115). -/
def freeBits (x : Word64) : Word32 := x.extractLsb' 59 5 ++ x.extractLsb' 0 27

/-- The output with the free bits below it. -/
def outputAndFreeBits (x : Word64) : Word64 := xshRr x ++ freeBits x

/-- Equal joined words have equal parts. -/
theorem append_inj {m n : Nat} {a c : BitVec m} {b d : BitVec n} (same : a ++ b = c ++ d) : a = c ∧ b = d := by
  have high := congrArg (BitVec.extractLsb' n m) same
  have low := congrArg (BitVec.extractLsb' 0 n) same
  rw [BitVec.extractLsb'_append_eq_left, BitVec.extractLsb'_append_eq_left] at high
  rw [BitVec.extractLsb'_append_eq_right, BitVec.extractLsb'_append_eq_right] at low
  exact ⟨high, low⟩

/-- Rotating by a fixed distance loses nothing: every bit moves somewhere (R112). -/
theorem ror32_injective {r : Word32} (small : r.toNat < 32) : Function.Injective (ror32 · r) := by
  intro v w same
  apply BitVec.eq_of_getLsbD_eq
  intro j inside
  have source : ((j + 32 - r.toNat) % 32 + r.toNat) % 32 = j := by omega
  have moved := congrArg (BitVec.getLsbD · ((j + 32 - r.toNat) % 32)) same
  simpa only [ror32_getLsbD _ small (Nat.mod_lt _ (by decide : 32 > 0)), source] using moved

/-- The top five bits are all that a shift by 59 keeps. -/
theorem shr64_59 (x : Word64) : shr64 x 59 = (x.extractLsb' 59 5).setWidth 64 := by
  apply BitVec.eq_of_toNat_eq
  rw [shr64, BitVec.toNat_ushiftRight, BitVec.toNat_setWidth, BitVec.extractLsb'_toNat, Nat.shiftRight_eq_div_pow]
  omega

/-- States with the same top and low bits and the same `xorshifted` are the same: a middle bit follows from the bit 18
places above it (R111), so two such steps from the top reach every one. -/
theorem eq_of_xorshifted_eq {x y : Word64} (top : shr64 x 59 = shr64 y 59)
    (low : x.extractLsb' 0 27 = y.extractLsb' 0 27) (middle : xorshifted x = xorshifted y) : x = y := by
  have topBit (i : Nat) (high : 59 ≤ i) : x.getLsbD i = y.getLsbD i := by
    simpa [shr64, Nat.add_sub_cancel' high] using congrArg (BitVec.getLsbD · (i - 59)) top
  have lowBit (i : Nat) (inside : i < 27) : x.getLsbD i = y.getLsbD i := by
    simpa [inside] using congrArg (BitVec.getLsbD · i) low
  have follows (i : Nat) (from27 : 27 ≤ i) (above : x.getLsbD (i + 18) = y.getLsbD (i + 18)) :
      x.getLsbD i = y.getLsbD i := by
    by_cases high : 59 ≤ i
    · exact topBit i high
    · have bit := congrArg (BitVec.getLsbD · (i - 27)) middle
      rw [xorshifted_getLsbD x (by omega), xorshifted_getLsbD y (by omega), Nat.sub_add_cancel from27,
        show i - 27 + 45 = i + 18 by omega, above] at bit
      exact Bool.xor_left_inj.1 bit
  have upper (i : Nat) (from45 : 45 ≤ i) := follows i (by omega) (topBit (i + 18) (by omega))
  apply BitVec.eq_of_getLsbD_eq
  intro i _
  by_cases from27 : 27 ≤ i
  · exact follows i from27 (upper (i + 18) (by omega))
  · exact lowBit i (by omega)

/-- The output and the free bits determine the state. -/
theorem outputAndFreeBits_injective : Function.Injective outputAndFreeBits := by
  intro x y same
  obtain ⟨output, free⟩ := append_inj same
  obtain ⟨five, low⟩ := append_inj free
  have top : shr64 x 59 = shr64 y 59 := by rw [shr64_59, shr64_59, five]
  have rot : rotAmount x = rotAmount y := congrArg trunc32 top
  rw [xshRr, xshRr, rot] at output
  exact eq_of_xorshifted_eq top low (ror32_injective (rotAmount_lt y) output)

/-- Every output occurs with every choice of the free bits. -/
theorem outputAndFreeBits_surjective : Function.Surjective outputAndFreeBits :=
  have : Finite Word64 := Finite.of_injective _ BitVec.toFin_injective
  Finite.injective_iff_surjective.1 outputAndFreeBits_injective

/-- Settles O28: the states with output `v` correspond to the `2^32` choices of the free bits. -/
theorem everyOutputHasTwoPow32States : Obligations.EveryOutputHasTwoPow32States := by
  intro v
  rw [← Finset.card_range (2 ^ 32)]
  refine Finset.card_bij (fun n _ => (freeBits (BitVec.ofNat 64 n)).toNat) ?maps ?injective ?surjective
  case maps => exact fun n _ => Finset.mem_range.2 (BitVec.isLt _)
  case injective =>
    intro m hm n hn same
    obtain ⟨m_lt, m_output⟩ := Finset.mem_filter.1 hm
    obtain ⟨n_lt, n_output⟩ := Finset.mem_filter.1 hn
    have joined : outputAndFreeBits (BitVec.ofNat 64 m) = outputAndFreeBits (BitVec.ofNat 64 n) := by
      rw [outputAndFreeBits, outputAndFreeBits, m_output, n_output, BitVec.toNat_injective same]
    have states := congrArg BitVec.toNat (outputAndFreeBits_injective joined)
    rwa [BitVec.toNat_ofNat, BitVec.toNat_ofNat, Nat.mod_eq_of_lt (Finset.mem_range.1 m_lt),
      Nat.mod_eq_of_lt (Finset.mem_range.1 n_lt)] at states
  case surjective =>
    intro k hk
    obtain ⟨x, joined⟩ := outputAndFreeBits_surjective (v ++ BitVec.ofNat 32 k)
    obtain ⟨output, free⟩ := append_inj joined
    refine ⟨x.toNat, Finset.mem_filter.2 ⟨Finset.mem_range.2 x.isLt, ?_⟩, ?_⟩
    · rw [BitVec.ofNat_toNat, BitVec.setWidth_eq, output]
    · rw [BitVec.ofNat_toNat, BitVec.setWidth_eq, free, BitVec.toNat_ofNat, Nat.mod_eq_of_lt (Finset.mem_range.1 hk)]

end Sys2Proof.Machine
end

section
/-! PROOF of O29, O30: `NEXT` and `INT63` (R114, R116). -/

namespace Sys2Proof.Machine

/-- `INT63` makes two steps and answers the two outputs joined (R116). -/
theorem exec_int63 (s : State) :
    exec .int63 s = .next { s with
      state := lcg s.inc (lcg s.inc s.state)
      phase := .resp { status := .ok, data := int63Data (xshRr s.state) (xshRr (lcg s.inc s.state)) } } :=
  rfl

/-- Below bit 63 the data of `INT63` is the two draws joined; the mask clears bit 63 only (R116). -/
theorem int63Data_getLsbD (hi lo : Word32) {i : Nat} (inside : i < 63) :
    (int63Data hi lo).getLsbD i = if i < 32 then lo.getLsbD i else hi.getLsbD (i - 32) := by
  have word : i < 64 := by omega
  have mask : (0x7FFFFFFFFFFFFFFF : Word64) = (BitVec.allOnes 63).setWidth 64 := by decide
  rw [int63Data, mask, BitVec.getLsbD_and, BitVec.getLsbD_setWidth, BitVec.getLsbD_allOnes, shl64, zext64, zext64,
    BitVec.getLsbD_or, BitVec.getLsbD_shiftLeft, BitVec.getLsbD_setWidth, BitVec.getLsbD_setWidth]
  split
  · next low => simp [word, inside, low]
  · next high =>
    have half : i - 32 < 64 := by omega
    simp [word, inside, high, half, BitVec.getLsbD_of_ge lo i (by omega)]

/-- Settles O29: `exec_next` with the step and the extension written out. -/
theorem nextAnswersTheOutputOfTheOldState : Obligations.NextAnswersTheOutputOfTheOldState := exec_next

/-- Settles O30: the data bit by bit, and two `NEXT` commands make the same two steps. -/
theorem int63JoinsTwoDrawsEarlierHigh : Obligations.Int63JoinsTwoDrawsEarlierHigh := by
  intro s
  refine ⟨_, exec_int63 s, int63Data_bit63 _ _, fun j inside => ?high, fun j inside => ?low, _,
    execAll_cons (exec_next s) _, rfl, rfl⟩
  case high => simp [int63Data_getLsbD _ _ (show 32 + j < 63 by omega)]
  case low => rw [int63Data_getLsbD _ _ (by omega), if_pos inside]; rfl

end Sys2Proof.Machine
end

/-! # Jump-ahead (spec/43_advance.md) -/

section
/-! SUPPORT. One iteration of `ADV` by the lowest bit of `delta`, and a number of iterations: what is left of `delta` and
how many steps the two pairs stand for (R132, R135). -/

namespace Sys2Proof.Machine

/-- An iteration with `delta` odd takes the current pair in, then doubles it (R132). -/
theorem advIterate_odd {c : AdvCtx} (odd : c.delta.getLsbD 0 = true) : advIterate c = advDouble (advAccumulate c) :=
  if_pos odd

/-- An iteration with `delta` even only doubles the current pair (R132). -/
theorem advIterate_even {c : AdvCtx} (even : c.delta.getLsbD 0 = false) : advIterate c = advDouble c :=
  if_neg (Bool.eq_false_iff.1 even)

/-- Each iteration shifts `delta` right by one bit (R133). -/
theorem advIterate_iterate_delta (k : Nat) (c : AdvCtx) : (advIterate^[k] c).delta = c.delta >>> k := by
  induction k with
  | zero => exact (BitVec.ushiftRight_zero _).symm
  | succ k ih =>
    apply BitVec.eq_of_toNat_eq
    rw [Function.iterate_succ_apply', advIterate_delta, ih, BitVec.shiftRight_add, BitVec.toNat_ushiftRight _ 1,
      Nat.shiftRight_one]

/-- After `k` iterations the current pair is `2^k` steps and the accumulator pair `A mod 2^k` steps (R135). -/
theorem advIterate_iterate_isSteps (inc a : Word64) (k : Nat) :
    let c := advIterate^[k] (advInit a (inc ||| 1))
    IsSteps inc c.curMult c.curPlus (2 ^ k) ∧ IsSteps inc c.accMult c.accPlus (a.toNat % 2 ^ k) := by
  induction k with
  | zero =>
    rw [pow_zero, Nat.mod_one]
    exact ⟨isSteps_one inc, isSteps_zero inc⟩
  | succ k ih =>
    obtain ⟨cur, acc⟩ := ih
    have bit : (advIterate^[k] (advInit a (inc ||| 1))).delta.toNat = a.toNat / 2 ^ k := by
      rw [advIterate_iterate_delta, BitVec.toNat_ushiftRight, Nat.shiftRight_eq_div_pow]
      rfl
    rw [Function.iterate_succ_apply', Nat.mod_pow_succ, ← bit, Nat.mul_comm (2 ^ k)]
    exact ⟨advIterate_cur_isSteps cur, advIterate_acc_isSteps acc cur⟩

/-- The pair that stands for a number of steps is determined by the map (R135): by its values at 0 and 1. -/
theorem IsSteps.unique {inc p q p' q' : Word64} {n : Nat} (h : IsSteps inc p q n) (h' : IsSteps inc p' q' n) :
    p = p' ∧ q = q' := by
  have atZero : p * 0 + q = p' * 0 + q' := (h 0).trans (h' 0).symm
  have atOne : p * 1 + q = p' * 1 + q' := (h 1).trans (h' 1).symm
  have plus : q = q' := by simpa only [mul_zero, zero_add] using atZero
  rw [plus, mul_one, mul_one] at atOne
  exact ⟨add_right_cancel atOne, plus⟩

end Sys2Proof.Machine
end

section
/-! PROOF of O34: the loop invariant in closed form (R135). -/

namespace Sys2Proof.Machine

/-- `G(n)`, the sum of the first `n` powers of `MULT` (R135). -/
def multSum (n : Nat) : Word64 := ((List.range n).map fun j => mult ^ j).sum

/-- One more power. -/
theorem multSum_succ (n : Nat) : multSum (n + 1) = multSum n + mult ^ n := by
  simp [multSum, List.range_succ]

/-- `n` steps are the affine map of R135. -/
theorem stepsOn_eq (inc : Word64) (n : Nat) (x : Word64) :
    stepsOn inc n x = mult ^ n * x + (inc ||| 1) * multSum n := by
  induction n generalizing x with
  | zero => simp [multSum]
  | succ n ih =>
    calc stepsOn inc (n + 1) x = mult ^ n * (mult * x + (inc ||| 1)) + (inc ||| 1) * multSum n := ih (lcg inc x)
      _ = mult ^ (n + 1) * x + (inc ||| 1) * multSum (n + 1) := by rw [multSum_succ]; ring

/-- The pair of `n` steps in closed form (R135). -/
theorem IsSteps.eq_pow_multSum {inc p q : Word64} {n : Nat} (h : IsSteps inc p q n) :
    p = mult ^ n ∧ q = (inc ||| 1) * multSum n :=
  h.unique fun x => (stepsOn_eq inc n x).symm

/-- `MULT^(2^62) = 1` (R135): the multiplier of `2^k` steps is 1 modulo `2^(k + 2)`. -/
theorem mult_pow_two_pow_62 : mult ^ (2 ^ 62) = 1 := by
  obtain ⟨u, v, pair⟩ := isSteps_two_pow 0 62
  have overflow : (2 : Word64) ^ (62 + 2) = 0 :=
    calc (2 : Word64) ^ (62 + 2) = 0x10000000000000000 := by norm_num
      _ = 0 := rfl
  rw [← pair.eq_pow_multSum.1, overflow, zero_mul, zero_add]

/-- Settles O34: the two pairs are that many steps, and a pair of steps has the closed form. -/
theorem advLoopInvariantInClosedForm : Obligations.AdvLoopInvariantInClosedForm := by
  refine ⟨fun a i k _ => ?invariant, fun i x m => stepsOn_eq i m x, by decide, by decide, by decide,
    mult_pow_two_pow_62⟩
  obtain ⟨cur, acc⟩ := advIterate_iterate_isSteps i a k
  exact ⟨cur.eq_pow_multSum.1, cur.eq_pow_multSum.2, acc.eq_pow_multSum.1, acc.eq_pow_multSum.2,
    advIterate_iterate_delta k _⟩

end Sys2Proof.Machine
end

section
/-! PROOF of O35, O37: `ADV` as a number of steps, jumps composed and undone (R136, R137, R138). -/

namespace Sys2Proof.Machine

/-- Settles O35: `exec_adv`, that is the invariant at the end of the loop, with the step written out. -/
theorem advIsThatManySteps : Obligations.AdvIsThatManySteps := exec_adv

/-- Steps count modulo the period (R137). -/
theorem stepsOn_mod_two_pow_64 (inc : Word64) (n : Nat) (x : Word64) : stepsOn inc (n % 2 ^ 64) x = stepsOn inc n x :=
  Function.IsPeriodicPt.iterate_mod_apply (stepsOn_two_pow_64 inc x) n

/-- `ADV A` and then `ADV B` is `ADV (A + B)` (R138). -/
theorem execAll_adv_adv (a b : Word64) (s : State) : execAll [.adv a, .adv b] s = exec (.adv (a + b)) s := by
  rw [execAll_cons (exec_adv a s), execAll_cons (exec_adv b _), exec_adv, BitVec.toNat_add, stepsOn_mod_two_pow_64,
    stepsOn_add]
  rfl

/-- `NEXT` commands one after another: the steps add up (R114). -/
theorem execAll_replicate_next (n : Nat) (s : State) :
    ∃ t, execAll (List.replicate n .next) s = .next t ∧ t.state = stepsOn s.inc n s.state ∧ t.inc = s.inc := by
  induction n generalizing s with
  | zero => exact ⟨s, rfl, rfl, rfl⟩
  | succ n ih =>
    rw [List.replicate_succ, execAll_cons (exec_next s), stepsOn_succ]
    exact ih _

/-- `n` steps and the jump by `-n` make a whole number of periods (R137). -/
theorem stepsOn_neg_undoes (inc : Word64) (n : Nat) (x : Word64) :
    stepsOn inc (BitVec.ofInt 64 (-(n : Int))).toNat (stepsOn inc n x) = x := by
  rw [← stepsOn_add, stepSequencesHavePeriodTwoPow64, BitVec.toNat_ofInt]
  omega

/-- Settles O37: both jumps are counts of steps modulo the period, and draws are steps too. -/
theorem jumpsComposeAndRewind : Obligations.JumpsComposeAndRewind := by
  refine ⟨execAll_adv_adv, fun n s _ => ?rewind⟩
  obtain ⟨t, draws, state, inc⟩ := execAll_replicate_next n s
  refine ⟨t, _, draws, exec_adv _ t, ?_, inc⟩
  show stepsOn t.inc _ t.state = s.state
  rw [state, inc, stepsOn_neg_undoes]

end Sys2Proof.Machine
end

section
/-! PROOF of O33: the number of iterations (R133). -/

namespace Sys2Proof.Machine

/-- A number above 0 has one bit more than its half. -/
theorem size_eq_size_half_succ {n : Nat} (pos : n ≠ 0) : n.size = (n / 2).size + 1 := by
  have bits := Nat.size_bit (b := n.bodd) (n := n.div2) (by rwa [Nat.bit_bodd_div2])
  rwa [Nat.bit_bodd_div2, Nat.div2_val] at bits

/-- Nothing is left of `delta` once there were as many iterations as it has bits (R133). -/
theorem advIterate_iterate_delta_eq_zero_iff (n : Nat) (c : AdvCtx) :
    (advIterate^[n] c).delta = 0 ↔ c.delta.toNat.size ≤ n := by
  rw [advIterate_iterate_delta, ← BitVec.toNat_inj, BitVec.toNat_ushiftRight, Nat.shiftRight_eq_div_pow, Nat.size_le]
  exact Nat.div_eq_zero_iff_lt (Nat.two_pow_pos n)

/-- With fuel for every bit of `delta` the loop makes as many iterations as `delta` has bits (R133). -/
theorem advLoop_eq_iterate {fuel : Nat} {c : AdvCtx} (enough : c.delta.toNat.size ≤ fuel) :
    advLoop fuel c = advIterate^[c.delta.toNat.size] c := by
  induction fuel generalizing c with
  | zero => rw [Nat.le_zero.1 enough]; rfl
  | succ fuel ih =>
    by_cases done : c.delta = 0
    · rw [advLoop, if_pos done, done]; rfl
    · have halved : c.delta.toNat.size = (advIterate c).delta.toNat.size + 1 := by
        rw [advIterate_delta]
        exact size_eq_size_half_succ fun zero => done (BitVec.eq_of_toNat_eq zero)
      rw [halved] at enough ⊢
      rw [advLoop, if_neg done, ih (Nat.le_of_succ_le_succ enough), Function.iterate_succ_apply]

/-- A word has at most 64 bits. -/
theorem size_toNat_le (a : Word64) : a.toNat.size ≤ 64 := Nat.size_le.2 a.isLt

/-- Settles O33: `delta` loses a bit in each iteration. -/
theorem advIterationsAreTheBitLength : Obligations.AdvIterationsAreTheBitLength :=
  ⟨fun a i n => advIterate_iterate_delta_eq_zero_iff n (advInit a i), size_toNat_le,
    fun a top => le_antisymm (size_toNat_le a) (Nat.lt_size.2 (Nat.ge_two_pow_of_testBit top)),
    fun a i => advLoop_eq_iterate (c := advInit a i) (size_toNat_le a)⟩

end Sys2Proof.Machine
end

section
/-! PROOF of O38: the corner cases of `ADV` (R139). -/

namespace Sys2Proof.Machine

/-- Setting bit 0 of an odd word changes nothing. -/
theorem or_one_of_odd {x : Word64} (odd : x.getLsbD 0 = true) : x ||| 1 = x := by
  ext i inside
  cases i with
  | zero => simpa using odd
  | succ i => simp

/-- Adding the top bit flips it. -/
theorem add_top_eq_xor (x : Word64) : x + 0x8000000000000000 = x ^^^ 0x8000000000000000 := by
  have top : (0x8000000000000000 : Word64).toNat = 2 ^ 63 := rfl
  apply BitVec.eq_of_toNat_eq
  rw [BitVec.toNat_add, BitVec.toNat_xor, top]
  have low : (x.toNat ^^^ 2 ^ 63) % 2 ^ 63 = x.toNat % 2 ^ 63 := by
    rw [Nat.xor_mod_two_pow, Nat.mod_self, Nat.xor_zero]
  have high : (x.toNat ^^^ 2 ^ 63) / 2 ^ 63 = 1 - x.toNat / 2 ^ 63 := by
    have bit : x.toNat / 2 ^ 63 < 2 := by omega
    rw [Nat.xor_div_two_pow, Nat.div_self (Nat.two_pow_pos 63)]
    interval_cases x.toNat / 2 ^ 63 <;> rfl
  omega

/-- `ADV 1` makes one iteration, which takes one step into the identity (R139). -/
theorem advLoop_one (i : Word64) :
    (advLoop 64 (advInit 1 i)).accMult = mult ∧ (advLoop 64 (advInit 1 i)).accPlus = i := by
  have bits : (advInit 1 i).delta.toNat.size = 1 := Nat.size_one
  have odd : (1 : Word64).getLsbD 0 = true := by decide
  rw [advLoop_eq_iterate (size_toNat_le _), bits, Function.iterate_one, advIterate_odd (c := advInit 1 i) odd]
  simp [advDouble, advAccumulate, advInit, mul64, add64]

/-- `ADV 1` is `STEP` (R139). -/
theorem exec_adv_one (s : State) : exec (.adv 1) s = exec .step s := exec_adv 1 s

/-- For an odd increment, `ADV 2^63` ends its loop with the pair that adds the top bit (R139). -/
theorem advLoop_two_pow_63 {i : Word64} (odd : i.getLsbD 0 = true) :
    (advLoop 64 (advInit 0x8000000000000000 i)).accMult = 1 ∧
      (advLoop 64 (advInit 0x8000000000000000 i)).accPlus = 0x8000000000000000 := by
  have half : IsSteps i 1 0x8000000000000000 (2 ^ 63) := fun x => by
    rw [stepsOn_two_pow_63, mul64, add64, one_mul]
  have jump := advLoop_isSteps i 0x8000000000000000
  rw [or_one_of_odd odd] at jump
  exact jump.unique half

/-- `ADV 2^63` flips the top bit of `state` (R139). -/
theorem exec_adv_two_pow_63 (s : State) : exec (.adv 0x8000000000000000) s =
    .next { s with state := s.state ^^^ 0x8000000000000000, phase := .resp { status := .ok, data := 0 } } := by
  have count : (0x8000000000000000 : Word64).toNat = 2 ^ 63 := rfl
  rw [exec_adv, count, stepsOn_two_pow_63, add_top_eq_xor]

/-- Two contexts that agree in what the multipliers are computed from: everything but `accPlus` and `curPlus`. -/
structure AdvCtx.SameMults (c d : AdvCtx) : Prop where
  delta : d.delta = c.delta
  accMult : d.accMult = c.accMult
  curMult : d.curMult = c.curMult

/-- No line of an iteration reads `accPlus` or `curPlus` for another word (R132). -/
theorem AdvCtx.SameMults.advIterate {c d : AdvCtx} (h : c.SameMults d) :
    (advIterate c).SameMults (advIterate d) := by
  obtain ⟨delta, accMult, curMult⟩ := h
  cases bit : c.delta.getLsbD 0 with
  | true =>
    rw [advIterate_odd bit, advIterate_odd (delta ▸ bit)]
    exact ⟨congrArg (shr64 · 1) delta, congrArg₂ mul64 accMult curMult, congrArg₂ mul64 curMult curMult⟩
  | false =>
    rw [advIterate_even bit, advIterate_even (delta ▸ bit)]
    exact ⟨congrArg (shr64 · 1) delta, accMult, congrArg₂ mul64 curMult curMult⟩

/-- Nor does the loop (R133). -/
theorem AdvCtx.SameMults.advLoop (fuel : Nat) {c d : AdvCtx} (h : c.SameMults d) :
    (advLoop fuel c).SameMults (advLoop fuel d) := by
  induction fuel generalizing c d with
  | zero => exact h
  | succ fuel ih =>
    by_cases done : c.delta = 0
    · rw [Machine.advLoop, Machine.advLoop, if_pos done, if_pos (h.delta.trans done)]
      exact h
    · rw [Machine.advLoop, Machine.advLoop, if_neg done, if_neg fun zero => done (h.delta.symm.trans zero)]
      exact ih h.advIterate

/-- The jump by -1 ends its loop with the inverse of `MULT`, for every increment (R139): one step more is the
whole period. -/
theorem advLoop_neg_one_accMult (i : Word64) :
    (advLoop 64 (advInit 0xFFFFFFFFFFFFFFFF i)).accMult = 0xC097EF87329E28A5 := by
  have sameMult := (AdvCtx.SameMults.advLoop (c := advInit 0xFFFFFFFFFFFFFFFF i)
    (d := advInit 0xFFFFFFFFFFFFFFFF (i ||| 1)) 64 ⟨rfl, rfl, rfl⟩).accMult
  have period : IsSteps i 1 0 (2 ^ 64) := fun x => by rw [stepsOn_two_pow_64, mul64, add64, one_mul, add_zero]
  have leftInverse := (((advLoop_isSteps i 0xFFFFFFFFFFFFFFFF).comp (isSteps_one i)).unique period).1
  rw [sameMult] at leftInverse
  exact left_inv_eq_right_inv leftInverse mult_mul_inverse

/-- `ADV -1` undoes a `STEP` (R137, R139). -/
theorem execAll_step_adv_neg_one (s : State) : execAll [.step, .adv 0xFFFFFFFFFFFFFFFF] s =
    .next { s with phase := .resp { status := .ok, data := 0 } } := by
  have undone : stepsOn s.inc (0xFFFFFFFFFFFFFFFF : Word64).toNat (lcg s.inc s.state) = s.state :=
    stepsOn_neg_undoes s.inc 1 s.state
  rw [execAll_cons (exec_step s), execAll_cons (exec_adv _ _)]
  show Host.Outcome.next { s with state := _, phase := _ } = _
  rw [undone]

/-- Settles O38: the cases one by one; the last is that no command but `RDINC` shows bit 0 of `inc` (R24). -/
theorem advCornerCases : Obligations.AdvCornerCases := by
  refine ⟨exec_adv_zero, fun _ => rfl, advLoop_one, exec_adv_one, fun _ => advLoop_two_pow_63, exec_adv_two_pow_63,
    advLoop_neg_one_accMult, execAll_step_adv_neg_one, fun a s => ?evenInc⟩
  obtain ⟨t, u, run, run', same⟩ := s.sameUpToIncBit_setReg_inc.exec (.adv a)
  exact ⟨t, u, run, run', same.state⟩

end Sys2Proof.Machine
end

section
/-! PROOF of O31, O32: the transitions of `ADV`, written out (R131, R132, R134). -/

namespace Sys2Proof.Machine

/-- Settles O31: the step that accepts a command begins it, and `ADV` begins with this context. -/
theorem advStartsFromTheIdentityAndOneStep : Obligations.AdvStartsFromTheIdentityAndOneStep := by
  intro s w rest a noReset idle valid list noPlan grain decoded
  exact step_begins noReset idle valid noPlan grain list decoded

/-- Settles O32: a transition by the lowest bit of `delta`, or the final assignment. -/
theorem advTransitionIsOneIterationOrTheEnd : Obligations.AdvTransitionIsOneIterationOrTheEnd := by
  intro s c noReset running noPlan
  rw [step_adv noReset noPlan running]
  refine ⟨fun more odd => ?odd, fun more even => ?even, fun done => ?ends⟩
  case odd => rw [State.advTransition_iterates more, advIterate_odd odd]; rfl
  case even => rw [State.advTransition_iterates more, advIterate_even even]; rfl
  case ends => rw [State.advTransition_ends done]; rfl

end Sys2Proof.Machine
end

/-! # Bounded sampling (spec/44_bound.md) -/

section
/-! SUPPORT. A draw of `BOUND`, as equations in the rules' closed forms (R151, R153, R154). -/

namespace Sys2Proof.Machine

/-- A bound other than 0 is a positive number. -/
theorem toNat_pos_of_ne_zero {w : Word32} (pos : w ≠ 0) : 0 < w.toNat :=
  Nat.pos_of_ne_zero fun zero => pos (BitVec.eq_of_toNat_eq zero)

/-- The threshold as a word. -/
theorem boundThreshold_eq {w : Word32} (pos : w ≠ 0) : boundThreshold w = BitVec.ofNat 32 (2 ^ 32 % w.toNat) := by
  rw [← boundThreshold_toNat pos, BitVec.ofNat_toNat, BitVec.setWidth_eq]

/-- An accepted draw answers its remainder (R153, R154). -/
theorem State.boundDraw_of_le {s : State} {w t : Word32} (pos : w ≠ 0) (accepts : t.toNat ≤ (xshRr s.state).toNat) :
    s.boundDraw w t = { s with
      state := lcg s.inc s.state
      phase := .resp { status := .ok, data := BitVec.ofNat 64 ((xshRr s.state).toNat % w.toNat) } } := by
  rw [boundDraw_accepts accepts, zext64_umod32 _ pos]
  rfl

/-- A rejected draw is one step, and the command runs on (R153). -/
theorem State.boundDraw_of_lt {s : State} {w t : Word32} (rejects : (xshRr s.state).toNat < t.toNat) :
    s.boundDraw w t = { s with state := lcg s.inc s.state, phase := .busy (.bound w t) } :=
  boundDraw_rejects rejects

/-- A running `BOUND` whose next draw is accepted. -/
theorem step_bound_accepts {s : State} {w t : Word32} (noReset : s.pins.rst = false) (noPlan : s.schedule = [])
    (p : s.phase = .busy (.bound w t)) (pos : w ≠ 0) (accepts : t.toNat ≤ (xshRr s.state).toNat) :
    step s = .next { s with
      state := lcg s.inc s.state
      phase := .resp { status := .ok, data := BitVec.ofNat 64 ((xshRr s.state).toNat % w.toNat) } } := by
  rw [step_bound noReset noPlan p, State.boundDraw_of_le pos accepts]

/-- A running `BOUND` whose next draw is rejected: one step is consumed and the context stays. -/
theorem step_bound_rejects {s : State} {w t : Word32} (noReset : s.pins.rst = false) (noPlan : s.schedule = [])
    (p : s.phase = .busy (.bound w t)) (rejects : (xshRr s.state).toNat < t.toNat) :
    step s = .next { s with state := lcg s.inc s.state, phase := .busy (.bound w t) } := by
  rw [step_bound noReset noPlan p, State.boundDraw_of_lt rejects]

/-- `BOUND W` whose first draw is accepted. -/
theorem exec_bound_accepts {w : Word32} (pos : w ≠ 0) {s : State}
    (accepts : 2 ^ 32 % w.toNat ≤ (xshRr s.state).toNat) :
    exec (.bound w) s = .next { s with
      state := lcg s.inc s.state
      phase := .resp { status := .ok, data := BitVec.ofNat 64 ((xshRr s.state).toNat % w.toNat) } } := by
  rw [← boundThreshold_toNat pos] at accepts
  rw [execBound_pos pos, State.boundDraw_of_le pos accepts]

/-- `BOUND W` whose first draw is rejected. -/
theorem exec_bound_rejects {w : Word32} (pos : w ≠ 0) {s : State}
    (rejects : (xshRr s.state).toNat < 2 ^ 32 % w.toNat) :
    exec (.bound w) s = .next { s with
      state := lcg s.inc s.state
      phase := .busy (.bound w (BitVec.ofNat 32 (2 ^ 32 % w.toNat))) } := by
  rw [← boundThreshold_toNat pos] at rejects
  rw [execBound_pos pos, State.boundDraw_of_lt rejects, boundThreshold_eq pos]

end Sys2Proof.Machine
end

section
/-! PROOF of O39: the laws of the threshold (R151). -/

namespace Sys2Proof.Machine

/-- What 2^32 leaves over is what it leaves over once `W` is taken away, so it fits in the rest. -/
theorem two_pow_32_mod_le (w : Word32) : 2 ^ 32 % w.toNat ≤ 2 ^ 32 - w.toNat := by
  rw [Nat.mod_eq_sub_mod w.isLt.le]
  exact Nat.mod_le _ _

/-- A bound leaves nothing over exactly when it is a power of two (R151). -/
theorem two_pow_32_mod_eq_zero_iff (w : Word32) : 2 ^ 32 % w.toNat = 0 ↔ ∃ k, w.toNat = 2 ^ k := by
  rw [← Nat.dvd_iff_mod_eq_zero]
  constructor
  · intro divides
    obtain ⟨k, -, power⟩ := (Nat.dvd_prime_pow Nat.prime_two).1 divides
    exact ⟨k, power⟩
  · rintro ⟨k, power⟩
    have below : k < 32 := (Nat.pow_lt_pow_iff_right Nat.one_lt_two).1 (power ▸ w.isLt)
    exact power ▸ Nat.pow_dvd_pow 2 below.le

/-- Settles O39: the formula of R151 is the closed form `2^32 mod W`, which is below `W` and within `2^32 - W`; one
of the two is at most half of 2^32. -/
theorem thresholdIsTheUnfairTail : Obligations.ThresholdIsTheUnfairTail := by
  intro w pos
  have formula : (boundThreshold w).toNat = (2 ^ 32 - w.toNat) % 2 ^ 32 % w.toNat := by
    rw [boundThreshold, umod32_pos _ pos, neg32, BitVec.toNat_neg]
  have closed := boundThreshold_toNat pos
  have below : (boundThreshold w).toNat < w.toNat := closed ▸ Nat.mod_lt _ (toNat_pos_of_ne_zero pos)
  have fits : (boundThreshold w).toNat ≤ 2 ^ 32 - w.toNat := closed ▸ two_pow_32_mod_le w
  have half : (boundThreshold w).toNat < 2 ^ 31 := by omega
  have fair : boundThreshold w = 0 ↔ ∃ k, w.toNat = 2 ^ k := by
    rw [← two_pow_32_mod_eq_zero_iff, ← closed]
    exact BitVec.toNat_eq
  exact ⟨formula, closed, below, fits, half, fair⟩

end Sys2Proof.Machine
end

section
/-! PROOF of O40, O43: a draw is accepted or rejected, and a sample is below the bound (R153, R154, R157). -/

namespace Sys2Proof.Machine

/-- Settles O40: the two outcomes of a draw, for the first one and for a later one. -/
theorem boundAcceptsOrRejectsADraw : Obligations.BoundAcceptsOrRejectsADraw := fun _ _ pos =>
  ⟨exec_bound_accepts pos, exec_bound_rejects pos, fun _ noReset p noPlan =>
    ⟨step_bound_accepts noReset noPlan p pos, step_bound_rejects noReset noPlan p⟩⟩

/-- A draw that answers, answers a sample below the bound. -/
theorem State.boundDraw_sample_lt {s : State} {w t : Word32} {st : Status} {d : Word64} (pos : w ≠ 0)
    (p : (s.boundDraw w t).phase = .resp { status := st, data := d }) : d.toNat < w.toNat := by
  obtain ⟨-, accepted⟩ | ⟨-, rejected⟩ := s.boundDraw_cases w t
  · rw [accepted] at p
    obtain rfl := congrArg Response.data (Phase.resp.inj p)
    rw [zext64, BitVec.toNat_setWidth_of_le (by omega), umod32_pos _ pos]
    exact Nat.mod_lt _ (toNat_pos_of_ne_zero pos)
  · rw [rejected] at p
    cases p

/-- Settles O43: the response is a draw's, the first one's or a later one's; the host's turn does not touch it. -/
theorem samplesAreBelowTheBound : Obligations.SamplesAreBelowTheBound := by
  intro w s t d pos
  constructor
  · intro e p
    rw [execBound_pos pos] at e
    obtain rfl := Host.Outcome.next.inj e
    exact State.boundDraw_sample_lt pos p
  · intro threshold noReset running e p
    rw [step_of_transition (State.transition_bound noReset running)] at e
    obtain rfl := Host.Outcome.next.inj e
    rw [State.hostTurn_phase] at p
    exact State.boundDraw_sample_lt pos p

end Sys2Proof.Machine
end

section
/-! PROOF of O45: the corner-case table (R159). -/

namespace Sys2Proof.Machine

/-- A power of two as a bound. -/
theorem ofNat_two_pow_toNat {k : Nat} (small : k ≤ 31) : (BitVec.ofNat 32 (2 ^ k)).toNat = 2 ^ k := by
  rw [BitVec.toNat_ofNat, Nat.mod_eq_of_lt (Nat.pow_lt_pow_right Nat.one_lt_two (by omega))]

/-- The remainder by a power of two is the low bits. -/
theorem and_ofNat_two_pow_sub_one (x : Word32) {k : Nat} (small : k ≤ 31) :
    (x &&& (BitVec.ofNat 32 (2 ^ k) - 1)).setWidth 64 = BitVec.ofNat 64 (x.toNat % 2 ^ k) := by
  have mask : (BitVec.ofNat 32 (2 ^ k) - 1).toNat = 2 ^ k - 1 := by
    rw [BitVec.toNat_sub_of_le, ofNat_two_pow_toNat small]
    · rfl
    · rw [BitVec.le_def, ofNat_two_pow_toNat small]
      exact Nat.one_le_two_pow
  rw [← Nat.and_two_pow_sub_one_eq_mod, ← mask, ← BitVec.toNat_and, BitVec.ofNat_toNat]

/-- `BOUND` by a power of two accepts every draw and answers its low bits (R159). -/
theorem exec_bound_two_pow (s : State) {k : Nat} (small : k ≤ 31) :
    exec (.bound (BitVec.ofNat 32 (2 ^ k))) s = .next { s with
      state := lcg s.inc s.state
      phase := .resp
        { status := .ok, data := ((xshRr s.state) &&& (BitVec.ofNat 32 (2 ^ k) - 1)).setWidth 64 } } := by
  have bound := ofNat_two_pow_toNat small
  have pos : BitVec.ofNat 32 (2 ^ k) ≠ 0 := fun zero =>
    (Nat.two_pow_pos k).ne' (bound.symm.trans (congrArg BitVec.toNat zero))
  have fair : 2 ^ 32 % (BitVec.ofNat 32 (2 ^ k)).toNat = 0 := (two_pow_32_mod_eq_zero_iff _).2 ⟨k, bound⟩
  rw [exec_bound_accepts pos (fair ▸ Nat.zero_le _), bound, and_ofNat_two_pow_sub_one _ small]

/-- The greatest bound keeps every draw but the greatest (R159). -/
theorem ofNat_mod_greatest (x : Word32) :
    BitVec.ofNat 64 (x.toNat % 0xFFFFFFFF) = if x = 0xFFFFFFFF then 0 else x.setWidth 64 := by
  split
  next greatest => rw [greatest]; rfl
  next other =>
    have below : x.toNat < 0xFFFFFFFF :=
      Nat.lt_of_le_of_ne (Nat.le_of_lt_succ x.isLt) fun same => other (BitVec.eq_of_toNat_eq same)
    rw [Nat.mod_eq_of_lt below, BitVec.ofNat_toNat]

/-- The greatest bound rejects the draw 0 alone (R159). -/
theorem exec_bound_greatest {s : State} (nonzero : xshRr s.state ≠ 0) :
    exec (.bound 0xFFFFFFFF) s = .next { s with
      state := lcg s.inc s.state
      phase := .resp
        { status := .ok, data := if xshRr s.state = 0xFFFFFFFF then 0 else (xshRr s.state).setWidth 64 } } := by
  have accepts : 2 ^ 32 % (0xFFFFFFFF : Word32).toNat ≤ (xshRr s.state).toNat := toNat_pos_of_ne_zero nonzero
  rw [exec_bound_accepts (by decide) accepts, ← ofNat_mod_greatest]
  rfl

/-- Settles O45: the powers of two, 1 among them, three thresholds by their formula, and the greatest bound. -/
theorem boundCornerCases : Obligations.BoundCornerCases := by
  refine ⟨fun s => ?one, fun s k _ small => exec_bound_two_pow s small, by decide, by decide, by decide,
    fun s nonzero => exec_bound_greatest nonzero⟩
  case one =>
    have noBits : ((xshRr s.state) &&& (BitVec.ofNat 32 (2 ^ 0) - 1)).setWidth 64 = (0 : Word64) := by simp
    exact noBits ▸ exec_bound_two_pow s (Nat.zero_le 31)

end Sys2Proof.Machine
end

section
/-! PROOF of O44: the accepted draws are fair (R158). The rejected ones, below the threshold, have each residue
below it once: the one time by which the residues of all draws differ in number. -/

namespace Sys2Proof.Machine

/-- How many of the numbers below `b` have the remainder `v`. -/
theorem card_filter_mod_eq {w v : Nat} (below : v < w) (b : Nat) :
    ((Finset.range b).filter fun r => r % w = v).card = b / w + if v < b % w then 1 else 0 := by
  have residue (r : Nat) : r % w = v ↔ r ≡ v [MOD w] := by rw [Nat.ModEq, Nat.mod_eq_of_lt below]
  simp only [residue]
  rw [← Nat.count_eq_card_filter_range, Nat.count_modEq_card _ (Nat.zero_lt_of_lt below), Nat.mod_eq_of_lt below]

/-- Of the numbers from `b mod w` up to `b`, `b / w` have the remainder `v`. -/
theorem card_filter_accepted_mod_eq {w v : Nat} (below : v < w) (b : Nat) :
    ((Finset.range b).filter fun r => b % w ≤ r ∧ r % w = v).card = b / w := by
  have tail : b % w < w := Nat.mod_lt _ (Nat.zero_lt_of_lt below)
  have rejected : ((Finset.range b).filter fun r => r % w = v ∧ ¬ b % w ≤ r) =
      (Finset.range (b % w)).filter fun r => r % w = v := by
    have inside := Nat.mod_le b w
    ext r
    simp only [Finset.mem_filter, Finset.mem_range]
    omega
  have parts := Finset.card_filter_add_card_filter_not (s := (Finset.range b).filter fun r => r % w = v) (b % w ≤ ·)
  rw [Finset.filter_filter, Finset.filter_filter, rejected, card_filter_mod_eq below, card_filter_mod_eq below,
    Nat.mod_mod, Nat.div_eq_of_lt tail] at parts
  simp only [and_comm] at parts ⊢
  omega

/-- Settles O44: the accepted draws number `W` times the quotient `2^32 / W`, and each residue is met exactly
`2^32 / W` times among them. -/
theorem acceptedDrawsGiveEachResidueEquallyOften : Obligations.AcceptedDrawsGiveEachResidueEquallyOften := by
  intro w pos
  rw [boundThreshold_toNat pos]
  have divides : w.toNat ∣ 2 ^ 32 - 2 ^ 32 % w.toNat := Nat.dvd_sub_mod _
  have quotient : (2 ^ 32 - 2 ^ 32 % w.toNat) / w.toNat = 2 ^ 32 / w.toNat := (Nat.div_eq_sub_mod_div).symm
  refine ⟨divides, fun v below => ?_⟩
  rw [quotient, ← card_filter_accepted_mod_eq below]
  refine congrArg Finset.card (Finset.filter_congr fun r inRange => and_congr_right fun _ => ?_)
  rw [BitVec.toNat_eq, umod32_pos _ pos, BitVec.toNat_ofNat, Nat.mod_eq_of_lt (Finset.mem_range.1 inRange)]

end Sys2Proof.Machine
end

section
/-! PROOF of O41: the draws of `BOUND` counted (R155). -/

namespace Sys2Proof.Machine

/-- One step after a run. -/
theorem run_succ_last {s t u : State} {n : Nat} (run : Sys2Proof.core.run n s = .next t) (last : step t = .next u) :
    Sys2Proof.core.run (n + 1) s = .next u := by
  rw [run_add n 1 run]
  exact (run_one t).trans last

/-- A running `BOUND` whose next `k` draws are rejected makes `k` steps and still runs. -/
theorem run_bound_rejected {w x : Word32} (threshold : x.toNat = 2 ^ 32 % w.toNat) {s : State}
    (noReset : s.pins.rst = false) (noPlan : s.schedule = []) (p : s.phase = .busy (.bound w x)) {k : Nat}
    (rejected : AllRejected s.regs w k) :
    Sys2Proof.core.run k s = .next { s with state := stepsOn s.inc k s.state } := by
  induction k with
  | zero => exact run_zero
  | succ k ih =>
    have rejects : (xshRr (stepsOn s.inc k s.state)).toNat < x.toNat := threshold ▸ rejected k (Nat.lt_succ_self k)
    have last := step_bound_rejects (s := { s with state := stepsOn s.inc k s.state }) noReset noPlan p rejects
    rw [← p, ← stepsOn_succ'] at last
    exact run_succ_last (ih fun j hj => rejected j (Nat.lt_succ_of_lt hj)) last

/-- A running `BOUND` answers with the first draw that is accepted, the `k + 1`-th (R155). -/
theorem run_bound {w x : Word32} (pos : w ≠ 0) (threshold : x.toNat = 2 ^ 32 % w.toNat) {s : State}
    (noReset : s.pins.rst = false) (noPlan : s.schedule = []) (p : s.phase = .busy (.bound w x)) {k : Nat}
    (rejected : AllRejected s.regs w k) (accepted : 2 ^ 32 % w.toNat ≤ (xshRr (stepsOn s.inc k s.state)).toNat) :
    Sys2Proof.core.run (k + 1) s = .next { s with
      state := stepsOn s.inc (k + 1) s.state
      phase := .resp
        { status := .ok, data := BitVec.ofNat 64 ((xshRr (stepsOn s.inc k s.state)).toNat % w.toNat) } } := by
  rw [← threshold] at accepted
  have last := step_bound_accepts (s := { s with state := stepsOn s.inc k s.state }) noReset noPlan p pos accepted
  rw [← stepsOn_succ'] at last
  exact run_succ_last (run_bound_rejected threshold noReset noPlan p rejected) last

/-- Settles O41: `BOUND W` is the first step of the command begun, which answers with the `k + 1`-th draw. -/
theorem boundConsumesTheRejectedDrawsAndOne : Obligations.BoundConsumesTheRejectedDrawsAndOne := by
  intro w s k pos noReset noPlan rejected accepted
  have first := step_bound (s := { s with phase := .busy (.bound w (boundThreshold w)) }) noReset noPlan rfl
  have run := run_bound (s := { s with phase := .busy (.bound w (boundThreshold w)) })
    pos (boundThreshold_toNat pos) noReset noPlan rfl rejected accepted
  exact ⟨_, execBound_pos pos s, (run_succ_of_step k first).symm.trans run⟩

end Sys2Proof.Machine
end

section
/-! PROOF of O42: every `BOUND` ends (R156). The full period takes the state through every word, and every output
occurs, so the greatest one is drawn at last, and no threshold exceeds it. -/

namespace Sys2Proof.Machine

/-- The least period of every word is 2^64 (R104). -/
theorem minimalPeriod_lcg (inc x : Word64) : (lcg inc).minimalPeriod x = 2 ^ 64 :=
  Nat.dvd_antisymm
    (Function.IsPeriodicPt.minimalPeriod_dvd (stepsOn_two_pow_64 inc x))
    ((stepSequencesHavePeriodTwoPow64 inc x _).1 (Function.isPeriodicPt_minimalPeriod (lcg inc) x))

/-- Different numbers of steps below the period lead to different words. -/
theorem stepsOn_toNat_injective (inc x : Word64) : Function.Injective fun n : Word64 => stepsOn inc n.toNat x := by
  intro m n same
  have below (a : Word64) : a.toNat < (lcg inc).minimalPeriod x := minimalPeriod_lcg inc x ▸ a.isLt
  exact BitVec.eq_of_toNat_eq (Function.iterate_injOn_Iio_minimalPeriod (below m) (below n) same)

/-- Every word is reached from every word. -/
theorem exists_stepsOn_eq (inc x y : Word64) : ∃ n, stepsOn inc n x = y :=
  have : Finite Word64 := Finite.of_injective _ BitVec.toFin_injective
  have ⟨n, reached⟩ := Finite.injective_iff_surjective.1 (stepsOn_toNat_injective inc x) y
  ⟨n.toNat, reached⟩

/-- Every 32-bit value is drawn at last. -/
theorem exists_draw_eq (inc x : Word64) (v : Word32) : ∃ k, xshRr (stepsOn inc k x) = v := by
  obtain ⟨y, joined⟩ := outputAndFreeBits_surjective (v ++ (0 : Word32))
  obtain ⟨output, -⟩ := append_inj joined
  obtain ⟨k, reached⟩ := exists_stepsOn_eq inc x y
  exact ⟨k, reached ▸ output⟩

/-- Some draw is accepted, and there is a first such (R156). -/
theorem exists_first_accepted {w : Word32} (pos : w ≠ 0) (g : Regs) :
    ∃ k, AllRejected g w k ∧ 2 ^ 32 % w.toNat ≤ (xshRr (stepsOn g.inc k g.state)).toNat := by
  have some_accepted : ∃ k, 2 ^ 32 % w.toNat ≤ (xshRr (stepsOn g.inc k g.state)).toNat := by
    obtain ⟨k, greatest⟩ := exists_draw_eq g.inc g.state (BitVec.allOnes 32)
    have below := Nat.mod_lt (2 ^ 32) (toNat_pos_of_ne_zero pos)
    have fits := w.isLt
    refine ⟨k, ?_⟩
    rw [greatest, BitVec.toNat_allOnes]
    omega
  exact ⟨Nat.find some_accepted, fun j hj => not_le.1 (Nat.find_min some_accepted hj), Nat.find_spec some_accepted⟩

/-- `BOUND W`, `W > 0`, ends in an OK response, with the sample below `W` and only `state` changed besides. -/
theorem exec_bound_ends {w : Word32} (pos : w ≠ 0) {s : State} (noReset : s.pins.rst = false)
    (noPlan : s.schedule = []) :
    ∃ t n x d, exec (.bound w) s = .next t ∧
      Sys2Proof.core.run n t = .next { s with state := x, phase := .resp { status := .ok, data := d } } ∧
      d.toNat < w.toNat := by
  obtain ⟨k, rejected, accepted⟩ := exists_first_accepted pos s.regs
  obtain ⟨t, first, rest⟩ := boundConsumesTheRejectedDrawsAndOne w s k pos noReset noPlan rejected accepted
  refine ⟨t, k, _, _, first, rest, ?_⟩
  rw [BitVec.toNat_ofNat]
  exact (Nat.mod_le _ _).trans_lt (Nat.mod_lt _ (toNat_pos_of_ne_zero pos))

/-- Settles O42: the draws up to the first accepted one, of which the full period promises one. -/
theorem everyBoundEnds : Obligations.EveryBoundEnds := by
  intro w s pos noReset noPlan
  obtain ⟨t, n, x, d, first, rest, below⟩ := exec_bound_ends pos noReset noPlan
  exact ⟨t, n, _, d, first, rest, rfl, below, rfl⟩

end Sys2Proof.Machine
end

section
/-! PROOF of O14: every run ends (R15, R156, R184, R197). Each command is accepted, reaches its response in a number of
steps, and the response is taken; then one command fewer is left. -/

namespace Sys2Proof.Machine

/-- From `t` the block comes to a response, the host's side being that of `s`. -/
def State.RespondsFor (s t : State) : Prop :=
  ∃ (n : Nat) (u : State) (r : Response), Sys2Proof.core.run n t = .next u ∧ u.phase = .resp r ∧ s.SameHost u

/-- A response presented is one come to. -/
theorem State.RespondsFor.of_resp {s t : State} {r : Response} (p : t.phase = .resp r) (host : s.SameHost t) :
    s.RespondsFor t :=
  ⟨0, t, r, run_zero, p, host⟩

/-- What a run leads to a response from, comes to it. -/
theorem State.RespondsFor.of_run {s t u : State} {n : Nat} (run : Sys2Proof.core.run n t = .next u)
    (h : s.RespondsFor u) : s.RespondsFor t := by
  obtain ⟨m, v, r, more, p, host⟩ := h
  exact ⟨n + m, v, r, (run_add n m run).trans more, p, host⟩

/-- Every command run whole comes to its response; only a `BOUND` may need further steps (R156, R184). -/
theorem exec_responds (i : Instr) {s : State} (noReset : s.pins.rst = false) (noPlan : s.schedule = []) :
    ∃ t, exec i s = .next t ∧ s.RespondsFor t := by
  cases i with
  | bound w =>
    by_cases zero : w = 0
    · subst zero
      exact ⟨_, rfl, .of_resp rfl (exec_sameHost (i := .bound 0) rfl)⟩
    · obtain ⟨t, n, x, d, first, rest, -⟩ := exec_bound_ends zero noReset noPlan
      exact ⟨t, first, n, _, _, rest, rfl, rfl, rfl, rfl, rfl, rfl, rfl⟩
  | _ => exact ⟨_, rfl, .of_resp rfl ⟨rfl, rfl, rfl, rfl, rfl, rfl⟩⟩

/-- Every accepted word comes to its response, in either grain (R41, R67). -/
theorem State.accept_responds {s : State} (noReset : s.pins.rst = false) (noPlan : s.schedule = []) (w : CmdWord) :
    ∃ t, s.accept w = .next t ∧ s.RespondsFor t := by
  cases d : decode w with
  | error e => exact ⟨_, accept_error d, .of_resp rfl ⟨rfl, rfl, rfl, rfl, rfl, rfl⟩⟩
  | ok i =>
    obtain ⟨t, run, responds⟩ := exec_responds i noReset noPlan
    cases g : s.grain with
    | command => exact ⟨t, (accept_command d g).trans run, responds⟩
    | transition =>
      obtain ⟨n, -, reaches⟩ := run_beginCommand noReset noPlan i
      exact ⟨_, accept_transition d g, responds.of_run (reaches.trans run)⟩

/-- From a launch state the next command is answered, its response taken, and the block is ready to launch again. -/
theorem State.Launch.serves_next {s : State} (launch : s.Launch) {w : CmdWord} {rest : List CmdWord}
    (list : s.commands = w :: rest) :
    ∃ n t, Sys2Proof.core.run n s = .next t ∧ t.Launch ∧ t.commands = rest ∧
      t.taken.length = s.taken.length + 1 := by
  obtain ⟨idle, pins, noPlan⟩ := launch
  have noReset : s.pins.rst = false := congrArg Pins.rst pins
  obtain ⟨t, accepts, n, u, r, run, p, host⟩ :=
    accept_responds (s := { s with commands := rest }) noReset noPlan w
  have accepted : Machine.step s = .next t := by
    refine step_of_transition_nil ?_ ((accept_serves accepts).2.schedule.trans noPlan)
    rw [transition_accepts noReset idle (congrArg Pins.cmdValid pins) list, accepts]
  have pins_u : u.pins = Pins.ready := host.pins.trans pins
  have noPlan_u : u.schedule = [] := host.schedule.trans noPlan
  have taken : Machine.step u = .next (u.takeResponse r) :=
    step_of_transition_nil (transition_taken (congrArg Pins.rst pins_u) p (congrArg Pins.rspReady pins_u)) noPlan_u
  refine ⟨n + 1 + 1, u.takeResponse r, ?_, ⟨rfl, pins_u, noPlan_u⟩, host.commands, ?_⟩
  · rw [run_succ_of_step _ accepted, run_succ_last run taken]
  · rw [takeResponse_taken, List.length_append, host.taken, List.length_singleton]

/-- Settles O14: by induction on the host's list, each command being answered from a launch state. -/
theorem everyRunEnds : Obligations.EveryRunEnds := by
  intro s launch
  induction list : s.commands generalizing s with
  | nil => exact ⟨0, s, run_zero, ⟨launch.1, list, by simp [launch.2.2]⟩, rfl⟩
  | cons w rest ih =>
    obtain ⟨n, t, run, launch_t, list_t, taken_t⟩ := launch.serves_next list
    obtain ⟨m, u, more, ended, taken_u⟩ := ih t launch_t list_t
    refine ⟨n + m, u, (run_add n m run).trans more, ended, ?_⟩
    rw [taken_u, taken_t, List.length_cons]
    omega

end Sys2Proof.Machine
end

/-! # Reading the raw words (spec/45_readback.md) -/

section
/-! PROOF of O46: the two reads answer the stored words (R170, R171). -/

namespace Sys2Proof.Machine

/-- `RDSTATE` only answers, with `state` (R170). -/
theorem exec_rdstate (s : State) :
    exec .rdstate s = .next { s with phase := .resp { status := .ok, data := s.state } } :=
  rfl

/-- `RDINC` only answers, with `inc` as it is stored (R171). -/
theorem exec_rdinc (s : State) :
    exec .rdinc s = .next { s with phase := .resp { status := .ok, data := s.inc } } :=
  rfl

/-- Settles O46: the two reads by their equations; both are among the idempotent commands. -/
theorem readbackAnswersTheRawWords : Obligations.ReadbackAnswersTheRawWords := fun s =>
  ⟨exec_rdstate s, exec_rdinc s, idempotentCommands .rdstate s (.inr (.inl rfl)),
    idempotentCommands .rdinc s (.inr (.inr (.inl rfl)))⟩

end Sys2Proof.Machine
end

section
/-! PROOF of O47: read back and loaded elsewhere, the two words are the same generator (R172). What makes them enough is that a
command reads nothing of a block but its two registers, so that two blocks which agree in these answer alike. -/

namespace Sys2Proof.Machine

/-- A draw of a running `BOUND` in another block with the same registers is accepted or rejected alike (R153, R154). -/
theorem State.boundDraw_reads_regs (s other : State) (w t : Word32) :
    State.boundDraw { other with state := s.state, inc := s.inc } w t =
      { other with
        state := (s.boundDraw w t).state, inc := (s.boundDraw w t).inc, phase := (s.boundDraw w t).phase } := by
  obtain ⟨accepts, drawn⟩ | ⟨rejects, drawn⟩ := s.boundDraw_cases w t
  · rw [drawn]
    exact boundDraw_accepts accepts
  · rw [drawn]
    exact boundDraw_rejects rejects

/-- In another block with the same registers a command leaves the same registers and the same phase, hence the same
response (R21, R22). -/
theorem exec_reads_regs (i : Instr) (s other : State) :
    ∃ x, exec i s = .next x ∧
      exec i { other with state := s.state, inc := s.inc } =
        .next { other with state := x.state, inc := x.inc, phase := x.phase } := by
  cases i with
  | bound w =>
    by_cases zero : w = 0
    · subst zero
      exact ⟨_, rfl, rfl⟩
    · exact ⟨_, execBound_pos zero s, by rw [execBound_pos zero, s.boundDraw_reads_regs]⟩
  | _ => exact ⟨_, rfl, rfl⟩

/-- Settles O47: the reads answer `state` and `inc`, `LOAD` stores them verbatim, and a command reads no more than these. -/
theorem readAndLoadReproducesTheGenerator : Obligations.ReadAndLoadReproducesTheGenerator := by
  intro s other
  refine ⟨s.state, s.inc, _, _, _, _, exec_rdstate s, rfl, exec_rdinc _, rfl, exec_load _ _ other, rfl, rfl,
    exec_load _ _ _, rfl, rfl, fun i => ?_⟩
  obtain ⟨x, run, alike⟩ := exec_reads_regs i s (other.respond .ok 0)
  exact ⟨x, _, run, alike, rfl, rfl, rfl⟩

end Sys2Proof.Machine
end

/-! # Errors (spec/60_exceptions.md) -/

section
/-! PROOF of O2: no step stops (R180, R184, R196, R205). -/

namespace Sys2Proof.Machine

/-- Settles O2: every transition answers, and the host's turn follows it. -/
theorem everyStepAnswersANextState : Obligations.EveryStepAnswersANextState := fun s =>
  let ⟨t, answered⟩ := s.transition_answers
  ⟨t.hostTurn, step_of_transition answered⟩

end Sys2Proof.Machine
end

section
/-! PROOF of O4: the zero bound (R152, R182). One fact about `exec` says which errors a command can answer with at all: the
zero bound's and no other. O3 uses it too. -/

namespace Sys2Proof.Machine

/-- `BOUND 0` is answered without a draw (R152, R182). -/
theorem exec_bound_zero (s : State) : exec (.bound 0) s = .next (s.raise .invalidArg) := rfl

/-- With transition grain too, `BOUND 0` is answered before it has a context (R182, R185). -/
theorem State.beginCommand_bound_zero (s : State) : s.beginCommand (.bound 0) = s.raise .invalidArg := rfl

/-- A legal command's response is `OK`, or it is the error of `BOUND 0` (R181, R182). -/
theorem exec_response_cases {i : Instr} {s t : State} {r : Response} (e : exec i s = .next t) (p : t.phase = .resp r) :
    r.status = .ok ∨ (i = .bound 0 ∧ r = { status := .errInvalidArg, data := 0 }) := by
  cases i with
  | bound w =>
    by_cases zero : w = 0
    · subst zero
      obtain rfl := Host.Outcome.next.inj ((exec_bound_zero s).symm.trans e)
      exact .inr ⟨rfl, (Phase.resp.inj p).symm⟩
    · obtain rfl := Host.Outcome.next.inj ((execBound_pos zero s).symm.trans e)
      obtain ⟨-, accepted⟩ | ⟨-, rejected⟩ := s.boundDraw_cases w (boundThreshold w)
      · rw [accepted] at p
        exact .inl (congrArg Response.status (Phase.resp.inj p)).symm
      · rw [rejected] at p
        cases p
  | _ =>
    obtain rfl := Host.Outcome.next.inj e
    exact .inl (congrArg Response.status (Phase.resp.inj p)).symm

/-- Settles O4: the effect by its equations in the two grains, the cause by the responses a command can give. -/
theorem zeroBoundIsAnInvalidArgument : Obligations.ZeroBoundIsAnInvalidArgument := by
  refine ⟨exec_bound_zero, fun i s t d e p => ?_, rfl, State.beginCommand_bound_zero⟩
  obtain ok | ⟨zeroBound, response⟩ := exec_response_cases e p
  · cases ok
  · exact ⟨zeroBound, congrArg Response.data response⟩

end Sys2Proof.Machine
end

section
/-! PROOF of O3: the reserved opcodes (R67, R181). -/

namespace Sys2Proof

/-- The reserved opcodes are 0x00 and 0x0B to 0xFF (R67). -/
theorem ofOpcode_eq_none_iff (o : Byte) : Mnemonic.ofOpcode o = none ↔ (o.toNat = 0 ∨ 0x0B ≤ o.toNat) := by
  unfold Mnemonic.ofOpcode
  generalize o.toNat = n
  match n with
  | 0 => decide
  | 1 | 2 | 3 | 4 | 5 | 6 | 7 | 8 | 9 | 10 => decide
  | n + 11 => simp

/-- A word is illegal exactly when its opcode names no command (R65, R67). -/
theorem decode_error_iff_ofOpcode (w : CmdWord) :
    (∃ e, decode w = .error e) ↔ Mnemonic.ofOpcode (opField w) = none := by
  unfold decode
  cases Mnemonic.ofOpcode (opField w) <;> simp

/-- A word is illegal exactly when its opcode is reserved (R67, R181). -/
theorem decode_error_iff (w : CmdWord) :
    (∃ e, decode w = .error e) ↔ ((opField w).toNat = 0 ∨ 0x0B ≤ (opField w).toNat) :=
  (decode_error_iff_ofOpcode w).trans (ofOpcode_eq_none_iff _)

end Sys2Proof

namespace Sys2Proof.Machine

variable {s : State}

/-- The step that accepts an illegal word presents the error, in either grain (R181). -/
theorem step_illegal (noReset : s.pins.rst = false) (idle : s.phase = .idle) (valid : s.pins.cmdValid = true)
    (noPlan : s.schedule = []) {w : CmdWord} {rest : List CmdWord} {e : DecodeError} (list : s.commands = w :: rest)
    (illegal : decode w = .error e) : step s = .next (State.raise { s with commands := rest } .illegalCmd) := by
  refine step_of_transition_nil ?_ noPlan
  rw [State.transition_accepts noReset idle valid list, State.accept_error illegal]

/-- The step in which the host takes a response (R44). -/
theorem step_takes (noReset : s.pins.rst = false) (noPlan : s.schedule = []) (ready : s.pins.rspReady = true)
    {r : Response} (p : s.phase = .resp r) : step s = .next (s.takeResponse r) :=
  step_of_transition_nil (State.transition_taken noReset p ready) noPlan

/-- An error answered and its response taken leave an idle block with one response more, and nothing else (R187, R188). -/
theorem State.takeResponse_raise (idle : s.phase = .idle) (e : CmdError) :
    (s.raise e).takeResponse { status := e.status, data := 0 } =
      { s with taken := s.taken ++ [{ status := e.status, data := 0 }] } := by
  cases s
  cases idle
  rfl

/-- Settles O3: the cause is the decoder's, no command gives this status, and the two steps are those of any error. -/
theorem illegalCommandIsAnsweredAndForgotten : Obligations.IllegalCommandIsAnsweredAndForgotten := by
  refine ⟨decode_error_iff, fun i s t d e p => ?_, rfl, fun s w rest noReset idle valid list noPlan reserved => ?_⟩
  · obtain ok | ⟨-, response⟩ := exec_response_cases e p
    · cases ok
    · cases response
  · obtain ⟨e, illegal⟩ := (decode_error_iff w).2 reserved
    refine ⟨step_illegal noReset idle valid noPlan list illegal, fun ready => ?_⟩
    have taken := step_takes (s := State.raise { s with commands := rest } .illegalCmd) noReset noPlan ready rfl
    exact taken.trans (congrArg _ (State.takeResponse_raise (s := { s with commands := rest }) idle .illegalCmd))

end Sys2Proof.Machine
end

/-! # Reset (spec/70_reset_and_hazards.md) -/

section
/-! PROOF of O5: what the ports show under `rst`, and the step of a reset (R200, R201). -/

namespace Sys2Proof.Machine

variable {s : State}

/-- Under `rst` the block accepts no command (R200). -/
theorem State.cmdReady_of_rst (reset : s.pins.rst = true) : s.cmdReady = false := by
  simp [State.cmdReady, reset]

/-- Under `rst` no response is presented, in `RESP` either (R200). -/
theorem State.rspPort_of_rst (reset : s.pins.rst = true) : s.rspPort = none := by
  cases p : s.phase with
  | resp => simp [State.rspPort, p, reset]
  | idle | busy => simp [State.rspPort, p]

/-- Under `rst` a step resets the block, whatever its phase, and is then the host's turn (R200, R201). -/
theorem step_rst (reset : s.pins.rst = true) : step s = .next s.resetBlock.hostTurn :=
  step_of_transition (State.transition_rst reset)

/-- Settles O5: the host's turn writes nothing of the block, and with no move left it is no change at all. -/
theorem resetOverridesEverything : Obligations.ResetOverridesEverything := by
  intro s reset
  refine ⟨State.cmdReady_of_rst reset, State.rspPort_of_rst reset, s.resetBlock.hostTurn, step_rst reset,
    s.resetBlock.hostTurn_phase, s.resetBlock.hostTurn_state, s.resetBlock.hostTurn_inc, s.resetBlock.hostTurn_resets,
    s.resetBlock.hostTurn_taken, fun noPlan => ?_⟩
  rw [State.hostTurn_nil s.resetBlock noPlan]
  exact ⟨rfl, rfl⟩

end Sys2Proof.Machine
end
